-- ==== Sys2Proof/Word.lean ====
section
/-! DEFINITION. The data of the core: the byte, the nibble and the register index (rules R6, R7, R10). -/

namespace Sys2Proof

/-- "An 8-bit unsigned value; also used to represent memory addresses (0–255) and immediate operands" (R8).
Every register, every memory cell, every address and the program counter is one. -/
abbrev Byte := BitVec 8

/-- Half a byte: the 4-bit fields of an instruction (R52). -/
abbrev Nibble := BitVec 4

/-- "An index in [0,16)", naming one of the 16 registers (R8, R10). -/
abbrev Reg := Fin 16

/-- Two nibbles as a byte, the first in the high half: the "big-endian nibble packing" of R32. -/
def packNibbles (hi lo : Nibble) : Byte := hi ++ lo

end Sys2Proof
end

