-- ==== Sys2Proof/Config.lean ====
section
/-! DEFINITION. The parameters of rule R6, each at the value this hardware takes, and the type of the one order the
source leaves open (decision D1). The spec leaves no value to be drawn at run time (file 93, last paragraph of
section 2), so there is no free value here. -/

namespace Sys2Proof.Config

/-- `NREGS` (R6). -/
def numRegs : Nat := 16

/-- `MEMSIZE` (R6): memory is exactly 256 bytes. -/
def memSize : Nat := 256

/-- `ILEN` in bytes (R6, R50): every instruction is exactly two bytes. -/
def instrBytes : Nat := 2

/-- `PTR_NIBBLE_ORDER` (R56, decision D1): which nibble of `byte1` holds the first listed operand of LOADP and
STOREP. The value the model takes is `Sys2Proof.ptrNibbleOrder` in Decode.lean. -/
inductive PtrNibbleOrder where
  /-- the data register in `byte1[7:4]`, the pointer register in `byte1[3:0]`: the spec's default -/
  | firstHigh
  /-- the other order, for which the spec keeps the parameter open -/
  | firstLow
deriving DecidableEq, Repr

end Sys2Proof.Config
end

