-- ==== Sys2Proof/Syntax.lean ====
section
/-! DEFINITION. The decoded instruction, one constructor per row of spec/opcode_table.json (R53, R58). -/

namespace Sys2Proof

/-- "A decoded, typed operation", the output of the decoder (R8, R58). Operands stand in the order of the
document's operand lists (R53, second column). -/
inductive Instr where
  /-- opcode 0, NONE (R120) -/
  | nop
  /-- opcode 1, LOADM (R100) -/
  | loadm (reg : Reg) (addr : Byte)
  /-- opcode 2, LOADB (R101) -/
  | loadb (reg : Reg) (value : Byte)
  /-- opcode 3, STOREM (R102) -/
  | storem (reg : Reg) (addr : Byte)
  /-- opcode 4, MOVE (R103): source first, as in the assembly text -/
  | move (src dst : Reg)
  /-- opcode 5, ADDI (R110) -/
  | addi (dst a b : Reg)
  /-- opcode 6, ADDF (R111): it decodes and never executes -/
  | addf (dst a b : Reg)
  /-- opcode 7, OR (R112) -/
  | or (dst a b : Reg)
  /-- opcode 8, AND (R113) -/
  | and (dst a b : Reg)
  /-- opcode 9, XOR (R114) -/
  | xor (dst a b : Reg)
  /-- opcode 10, ROT (R115): the whole of `byte1` is kept, execution masks it (R57) -/
  | rot (reg : Reg) (shift : Byte)
  /-- opcode 11, JMPEQ (R121) -/
  | jmpeq (reg : Reg) (addr : Byte)
  /-- opcode 12, HALT (R123) -/
  | halt
  /-- opcode 13, LOADP (R104) -/
  | loadp (dst ptr : Reg)
  /-- opcode 14, STOREP (R105) -/
  | storep (src ptr : Reg)
  /-- opcode 15, JMPLT (R122) -/
  | jmplt (reg : Reg) (addr : Byte)
deriving DecidableEq, Repr

end Sys2Proof
end

