-- ==== Sys2Proof/WellFormed.lean ====
section
/-! DEFINITION. Well-formedness. Every value of `Instr` is well-formed: a register field names one of the 16 registers and
an immediate is any byte (R52), which the operand types say. What can be ill-formed is what the host or an
assembler hands over: an image (R182, R184) and a word whose ignored bits are not the 0 the encoder writes
(R59, R61). -/

namespace Sys2Proof

/-- R182, R184: an image is at most 256 bytes. -/
def wellFormedImage (image : List Byte) : Bool := image.length ≤ Config.memSize

/-- R59, R61: the ignored fields are 0, as the encoder and the assembler write them. Opcodes 0 and 12 ignore the 12
low bits of the word, opcodes 4, 13 and 14 ignore `byte0[3:0]`, the others ignore nothing. The decoder does not
ask for this: it accepts every word (R58). -/
def canonicalWord (byte0 byte1 : Byte) : Bool :=
  let op : Nibble := byte0.extractLsb' 4 4
  let low : Nibble := byte0.extractLsb' 0 4
  if op = 0x0#4 ∨ op = 0xC#4 then low = 0#4 ∧ byte1 = 0#8
  else if op = 0x4#4 ∨ op = 0xD#4 ∨ op = 0xE#4 then low = 0#4
  else true

end Sys2Proof
end

