-- ==== Sys2Proof/Decode.lean ====
section
/-! DEFINITION. The codec (R50 to R61): the opcode map, the decoder, total on every pair of bytes, and after it the
encoder; then the two forms in which the host hands over bytes, a byte list and a numbered table word. -/

namespace Sys2Proof

/-! ## Fields (R51, R52) -/

/-- `op = byte0[7:4]`. -/
def opField (byte0 : Byte) : Nibble := byte0.extractLsb' 4 4

/-- `r = byte0[3:0]`. -/
def rField (byte0 : Byte) : Nibble := byte0.extractLsb' 0 4

/-- `hi = byte1[7:4]`. -/
def hiField (byte1 : Byte) : Nibble := byte1.extractLsb' 4 4

/-- `lo = byte1[3:0]`. -/
def loField (byte1 : Byte) : Nibble := byte1.extractLsb' 0 4

/-- "Every 4-bit register field names one of the 16 registers, so no value of a register field is invalid" (R52). -/
def regOfNibble (n : Nibble) : Reg := n.toFin

/-- The 4-bit field that names a register. -/
def nibbleOfReg (r : Reg) : Nibble := BitVec.ofFin r

/-! ## The opcode map (R53) -/

/-- The 16 opcodes by the spec's names. -/
inductive Opcode where
  | none | loadm | loadb | storem | move | addi | addf | or | and | xor | rot | jmpeq | halt | loadp | storep | jmplt
deriving DecidableEq, Repr

/-- "Opcode table (0–15)": the opcode at place `n` is the one numbered `n` (R53). -/
def opcodeMap : Vector Opcode 16 :=
  #v[.none, .loadm, .loadb, .storem, .move, .addi, .addf, .or,
     .and, .xor, .rot, .jmpeq, .halt, .loadp, .storep, .jmplt]

/-- "The opcode alone selects the instruction" (R53); all 16 values are assigned (R60). -/
def opcodeOf (n : Nibble) : Opcode := opcodeMap[regOfNibble n]

/-- The number of an opcode, written from the table's first column (R53). -/
def Opcode.number : Opcode → Nibble
  | .none => 0x0#4
  | .loadm => 0x1#4
  | .loadb => 0x2#4
  | .storem => 0x3#4
  | .move => 0x4#4
  | .addi => 0x5#4
  | .addf => 0x6#4
  | .or => 0x7#4
  | .and => 0x8#4
  | .xor => 0x9#4
  | .rot => 0xA#4
  | .jmpeq => 0xB#4
  | .halt => 0xC#4
  | .loadp => 0xD#4
  | .storep => 0xE#4
  | .jmplt => 0xF#4

/-- The instruction word `w = byte0 ++ byte1`, a notation only (R7). -/
def instrWord (byte0 byte1 : Byte) : BitVec 16 := (byte0.setWidth 16 <<< 8) ||| byte1.setWidth 16

/-- `match = op << 12` on the word `w` (R53). -/
def Opcode.tableMatch (o : Opcode) : BitVec 16 := o.number.setWidth 16 <<< 12

/-- `mask = 0xF000` on the word `w`: "No other bit takes part in selecting an instruction" (R53). -/
def opcodeMask : BitVec 16 := 0xF000#16

/-- The opcode an instruction value belongs to. -/
def Instr.opcode : Instr → Opcode
  | .nop => .none
  | .loadm _ _ => .loadm
  | .loadb _ _ => .loadb
  | .storem _ _ => .storem
  | .move _ _ => .move
  | .addi _ _ _ => .addi
  | .addf _ _ _ => .addf
  | .or _ _ _ => .or
  | .and _ _ _ => .and
  | .xor _ _ _ => .xor
  | .rot _ _ => .rot
  | .jmpeq _ _ => .jmpeq
  | .halt => .halt
  | .loadp _ _ => .loadp
  | .storep _ _ => .storep
  | .jmplt _ _ => .jmplt

/-- The mnemonic of spec/opcode_table.json. -/
def Opcode.mnemonic : Opcode → String
  | .none => "NONE"
  | .loadm => "LOADM"
  | .loadb => "LOADB"
  | .storem => "STOREM"
  | .move => "MOVE"
  | .addi => "ADDI"
  | .addf => "ADDF"
  | .or => "OR"
  | .and => "AND"
  | .xor => "XOR"
  | .rot => "ROT"
  | .jmpeq => "JMPEQ"
  | .halt => "HALT"
  | .loadp => "LOADP"
  | .storep => "STOREP"
  | .jmplt => "JMPLT"

/-! ## The nibble order of LOADP and STOREP (R56, decision D1) -/

/-- DESIGN CHOICE of the spec (D1, log entry 1), unsafe: the first listed operand is in the high nibble. -/
def ptrNibbleOrder : Config.PtrNibbleOrder := .firstHigh

/-- The nibble of `byte1` that holds the data register (`dst` of LOADP, `src` of STOREP). -/
def dataField (order : Config.PtrNibbleOrder) (byte1 : Byte) : Nibble :=
  match order with
  | .firstHigh => hiField byte1
  | .firstLow => loField byte1

/-- The nibble of `byte1` that holds the pointer register. -/
def ptrField (order : Config.PtrNibbleOrder) (byte1 : Byte) : Nibble :=
  match order with
  | .firstHigh => loField byte1
  | .firstLow => hiField byte1

/-! ## The decoder (R58) -/

/-- R58, with the pointer nibble order as a parameter. MOVE holds its destination in the high nibble (R55,
conflict C1). -/
def decodeWith (order : Config.PtrNibbleOrder) (byte0 byte1 : Byte) : Instr :=
  let r := regOfNibble (rField byte0)
  let hi := regOfNibble (hiField byte1)
  let lo := regOfNibble (loField byte1)
  let data := regOfNibble (dataField order byte1)
  let ptr := regOfNibble (ptrField order byte1)
  match opcodeOf (opField byte0) with
  | .none => .nop
  | .loadm => .loadm r byte1
  | .loadb => .loadb r byte1
  | .storem => .storem r byte1
  | .move => .move lo hi
  | .addi => .addi r hi lo
  | .addf => .addf r hi lo
  | .or => .or r hi lo
  | .and => .and r hi lo
  | .xor => .xor r hi lo
  | .rot => .rot r byte1
  | .jmpeq => .jmpeq r byte1
  | .halt => .halt
  | .loadp => .loadp data ptr
  | .storep => .storep data ptr
  | .jmplt => .jmplt r byte1

/-- "A pure function `decode(byte0, byte1) -> Instruction` that is total" (R58). -/
def decode (byte0 byte1 : Byte) : Instr := decodeWith ptrNibbleOrder byte0 byte1

/-- Why a byte list is no instruction. No pair of bytes is rejected (R58, R60); a list can only be too short (R50). -/
inductive DecodeReject where
  /-- fewer than the two bytes of an instruction -/
  | truncated
deriving DecidableEq, Repr

/-- Decode the front of a byte list, the byte at the lower address first (R50), and give back the rest. -/
def decodeBytes : List Byte → Except DecodeReject (Instr × List Byte)
  | byte0 :: byte1 :: rest => .ok (decode byte0 byte1, rest)
  | _ => .error .truncated

/-! ## The encoder (R59, R51): every operand in its field, 0 in every ignored field -/

/-- Format Z. -/
def wordZ (o : Opcode) : Byte × Byte := (packNibbles o.number 0#4, 0#8)

/-- Format RI. -/
def wordRI (o : Opcode) (r : Reg) (imm : Byte) : Byte × Byte :=
  (packNibbles o.number (nibbleOfReg r), imm)

/-- Format RRR. -/
def wordRRR (o : Opcode) (r hi lo : Reg) : Byte × Byte :=
  (packNibbles o.number (nibbleOfReg r), packNibbles (nibbleOfReg hi) (nibbleOfReg lo))

/-- Format RR. -/
def wordRR (o : Opcode) (hi lo : Reg) : Byte × Byte :=
  (packNibbles o.number 0#4, packNibbles (nibbleOfReg hi) (nibbleOfReg lo))

/-- Format RR for LOADP and STOREP, in the given nibble order (R56). -/
def wordPtr (order : Config.PtrNibbleOrder) (o : Opcode) (data ptr : Reg) : Byte × Byte :=
  match order with
  | .firstHigh => wordRR o data ptr
  | .firstLow => wordRR o ptr data

/-- R59, with the pointer nibble order as a parameter: the two bytes `(byte0, byte1)`. -/
def encodeWith (order : Config.PtrNibbleOrder) : Instr → Byte × Byte
  | .nop => wordZ .none
  | .loadm reg addr => wordRI .loadm reg addr
  | .loadb reg value => wordRI .loadb reg value
  | .storem reg addr => wordRI .storem reg addr
  | .move src dst => wordRR .move dst src
  | .addi dst a b => wordRRR .addi dst a b
  | .addf dst a b => wordRRR .addf dst a b
  | .or dst a b => wordRRR .or dst a b
  | .and dst a b => wordRRR .and dst a b
  | .xor dst a b => wordRRR .xor dst a b
  | .rot reg shift => wordRI .rot reg shift
  | .jmpeq reg addr => wordRI .jmpeq reg addr
  | .halt => wordZ .halt
  | .loadp dst ptr => wordPtr order .loadp dst ptr
  | .storep src ptr => wordPtr order .storep src ptr
  | .jmplt reg addr => wordRI .jmplt reg addr

/-- The encoder of this hardware's assembler (R59, R77). -/
def encode (i : Instr) : Byte × Byte := encodeWith ptrNibbleOrder i

/-! ## The table's numbering (R7): `w = byte0 * 256 + byte1` -/

/-- `w[15:8]`. -/
def byte0OfWord (w : Nat) : Byte := BitVec.ofNat 8 (w / 256)

/-- `w[7:0]`. -/
def byte1OfWord (w : Nat) : Byte := BitVec.ofNat 8 w

/-- The instruction the decoder reads from an instruction whose bits are `w`, numbered as spec/opcode_table.json
numbers them (`w = byte0 * 256 + byte1`, one 16-bit word): the bits from `nbits` up are 0, and a row wider than the
two bytes of an instruction is none of this hardware's. -/
def decodeTableWord (nbits w : Nat) : Option Instr :=
  if nbits ≤ 16 then
    match decodeBytes [byte0OfWord (w % 2 ^ nbits), byte1OfWord (w % 2 ^ nbits)] with
    | .ok (i, _) => some i
    | .error _ => none
  else none

end Sys2Proof
end

