-- ==== Sys2Proof/Machine/State.lean ====
section
/-! DEFINITION. The state of the core: the register file, the program counter, the memory and the action journal,
and nothing else (R9 item 2, R15); the two execution errors and the refusals; the state after power-on. -/

namespace Sys2Proof.Machine

/-- "The minimal reversible record of one VM state mutation caused by executing one instruction" (R8, R19). An
entry always carries the PREVIOUS value. -/
inductive Action where
  /-- the step changed no register, no memory byte, and did not jump -/
  | nothing
  /-- the step wrote `x[i]`, which held `prev` -/
  | registerSet (i : Reg) (prev : Byte)
  /-- the step wrote `mem[a]`, which held `prev` -/
  | memorySet (a : Byte) (prev : Byte)
  /-- the step took a jump; just before, `pc` was `prev` (one field, conflict C3) -/
  | programCounterSet (prev : Byte)
deriving DecidableEq, Repr

/-- Memory as data: the bytes that differ from what an unlisted address reads as, at strictly rising addresses
(`Memory.wf` in Ops.lean). -/
abbrev Memory := List Host.Cell

/-- The complete state (R9, R15): there is no halted bit, no error latch, no flag and no control register. -/
structure State where
  /-- the 16 general registers `x[0]` to `x[15]`, one byte each (R10) -/
  x : Vector Byte 16
  /-- the program counter, one byte (R13) -/
  pc : Byte
  /-- the 256 bytes of memory, code and data (R17, R30) -/
  mem : Memory
  /-- the action journal, newest entry first, of unbounded depth (R18, decision D9) -/
  journal : List Action
deriving DecidableEq, Repr

/-- The two execution errors, and no other (R160). Each ends the `STEP` in progress. As an outcome of `step` each is
a fault that ends the run, as R175 and file 93 (U1) ask; what the hardware is left with is `takeError` in Ops.lean,
and the host's `STEP` command goes on from there (R166). -/
inductive Fault where
  /-- R161: raised by a `STEP` that begins with `pc` 254 or 255. Safe: the hardware answers an error too. -/
  | pcOverflow
  /-- R162: raised by ADDF (opcode 6), always. Safe: the hardware answers an error too. -/
  | unimplemented
deriving DecidableEq, Repr

/-- What the model refuses. `step` refuses nothing. -/
inductive Refusal where
  /-- An instruction with no meaning yet: none is left, so nothing raises it. Safe. -/
  | notModelled (mnemonic : String)
  /-- Raised by the host command `FILL` with more than 256 bytes, which changes nothing (R182, D10). Safe. -/
  | imageTooLong
  /-- Raised by the host query `DISASSEMBLE(255)`: its second byte does not exist (R148, D11). Safe. -/
  | noSecondByte
deriving DecidableEq, Repr

/-- Power-on (R21, R180): registers and memory zero; `pc` 0 and journal empty by decision D7 (log entry 2). No memory
cell is listed: an unlisted address reads as 0. -/
def State.reset : State where
  x := Vector.replicate 16 0#8
  pc := 0#8
  mem := []
  journal := []

end Sys2Proof.Machine
end

