-- ==== Sys2Proof/Machine/Ops.lean ====
section
/-! DEFINITION. The named operations over memory, registers, program counter and journal: byte access, the four commit
primitives (R137 to R140), the fetch and the checked advance (R133, R134), and taking an execution error (R161,
R162, R164). -/

namespace Sys2Proof.Machine

/-! ## Memory as a canonical list -/

/-- What an unlisted address reads as: power-on memory is zero (R21, R180), and `FILL` pads with zero (R182). -/
def Memory.unlisted : Byte := 0#8

/-- The byte the list gives for a key. -/
def Memory.lookup : Memory → Nat → Byte
  | [], _ => Memory.unlisted
  | (k, v) :: rest, a => if a = k then v else Memory.lookup rest a

/-- Put a byte at a key, keeping the keys rising; a byte equal to what an unlisted address reads as removes the
entry. -/
def Memory.insert : Memory → Nat → Byte → Memory
  | [], a, b => if b = Memory.unlisted then [] else [(a, b)]
  | (k, v) :: rest, a, b =>
    if a < k then (if b = Memory.unlisted then (k, v) :: rest else (a, b) :: (k, v) :: rest)
    else if a = k then (if b = Memory.unlisted then rest else (a, b) :: rest)
    else (k, v) :: Memory.insert rest a b

/-- `MemRead(a, 1)` (R7, R34). An address is a byte, so every address exists (R31). -/
def Memory.read (m : Memory) (a : Byte) : Byte := Memory.lookup m a.toNat

/-- `MemWrite(a, 1, v)` (R7, R34): "changes exactly the one byte addressed". -/
def Memory.write (m : Memory) (a v : Byte) : Memory := Memory.insert m a.toNat v

/-- The canonical form from a key up: keys rising and below 256, and no entry equal to an unlisted byte. -/
def Memory.wfFrom : Nat → Memory → Bool
  | _, [] => true
  | low, (k, v) :: rest =>
    decide (low ≤ k) && decide (k < Config.memSize) && decide (v ≠ Memory.unlisted) && Memory.wfFrom (k + 1) rest

/-- The canonical form: equal memories are equal lists. -/
def Memory.wf (m : Memory) : Bool := Memory.wfFrom 0 m

/-- Bytes laid out from a key up (a byte list that runs past address 255 is not laid out by any caller). -/
def Memory.fromBytes (start : Nat) : List Byte → Memory
  | [] => []
  | b :: rest => Memory.insert (Memory.fromBytes (start + 1) rest) start b

/-! ## Reading and writing the state -/

/-- `x[i]` (R7). No register is hardwired (R10). -/
def State.reg (s : State) (i : Reg) : Byte := s.x[i]

/-- `x[i] <- v` (R7). -/
def State.writeReg (s : State) (i : Reg) (v : Byte) : State := { s with x := s.x.set i v }

/-- `MemRead(a, 1)`. -/
def State.load (s : State) (a : Byte) : Byte := s.mem.read a

/-- `MemWrite(a, 1, v)`. -/
def State.store (s : State) (a v : Byte) : State := { s with mem := s.mem.write a v }

/-- `pc <- v`. -/
def State.setPc (s : State) (v : Byte) : State := { s with pc := v }

/-- `journal.push(a)` (R7). -/
def State.push (s : State) (a : Action) : State := { s with journal := a :: s.journal }

/-! ## The commit primitives: at most one write and exactly one push -/

/-- `SetReg(i, v)` (R137): the entry holds the value before the write, whether or not it differs (D15). -/
def commitReg (i : Reg) (v : Byte) (s : State) : State := (s.writeReg i v).push (.registerSet i (s.reg i))

/-- `SetMem(a, v)` (R138). -/
def commitMem (a v : Byte) (s : State) : State := (s.store a v).push (.memorySet a (s.load a))

/-- `Jump(t)` (R139): the entry holds the advanced counter the jump discards, not the target. -/
def commitJump (target : Byte) (s : State) : State := (s.setPc target).push (.programCounterSet s.pc)

/-- `Nothing()` (R140). -/
def commitNothing (s : State) : State := s.push .nothing

/-! ## Fetch and advance -/

/-- R134: the advance is checked, `pc + 2` must not exceed 255. -/
def canAdvance (s : State) : Bool := s.pc.toNat + Config.instrBytes ≤ 255

/-- R133, R58: the instruction at `pc` and `pc + 1`, as memory stands now. -/
def fetchInstr (s : State) : Instr := decode (s.load s.pc) (s.load (s.pc + 1#8))

/-- R134: `pc <- p0 + 2`, before decode and execute; not logged. -/
def advance (s : State) : State := s.setPc (s.pc + BitVec.ofNat 8 Config.instrBytes)

/-- The two bytes of the table's word `w` stored where the next fetch reads, from a state that can fetch. -/
def placeWord (s : State) (w : Nat) : State :=
  if canAdvance s then (s.store s.pc (byte0OfWord w)).store (s.pc + 1#8) (byte1OfWord w) else s

/-! ## Execution errors -/

/-- What the outcomes of one instruction or one step are. -/
abbrev StepOutcome := Host.Outcome State Fault Refusal

/-- `raise e` (R7): ends the `STEP` with that error. -/
def raiseError (e : Fault) : StepOutcome := .fault e

/-- Taking an execution error, in place of trap entry (R164): what the core is left with when the `STEP` begun in `s`
ends in `e`. "Nothing is saved, no mode changes, no mask changes, no stack is used, and control goes nowhere." After
`PcOverflow` nothing has changed (R161); after `Unimplemented` `pc` stays advanced and nothing else has changed
(R162, decision D4). There is no return from an error (R165): every command goes on from this state (R166). -/
def takeError (e : Fault) (s : State) : State :=
  match e with
  | .pcOverflow => s
  | .unimplemented => advance s

end Sys2Proof.Machine
end

