-- ==== Sys2Proof/Machine/Operands.lean ====
section
/-! DEFINITION. The operand forms: the three addressing modes of R106 and the rotate count of R115. -/

namespace Sys2Proof.Machine

/-- Immediate (LOADB): the operand is `byte1`, unsigned, as stored (R54, R106). -/
def immediateOperand (imm : Byte) : Byte := imm

/-- Direct (LOADM, STOREM): the effective address is `byte1` (R54, R106). -/
def directAddress (imm : Byte) : Byte := imm

/-- Register-indirect (LOADP, STOREP): "the current value of the register named" by the pointer field; no offset, no
scale, no update (R35, R106). -/
def pointerAddress (s : State) (ptr : Reg) : Byte := s.reg ptr

/-- Absolute jump target (JMPEQ, JMPLT): `byte1`; never relative to `pc` (R54, R124). -/
def jumpTarget (imm : Byte) : Byte := imm

/-- The count of ROT: `imm & 7`; `byte1[7:3]` has no effect (R57, R115). -/
def rotateCount (shift : Byte) : Nat := (shift &&& 7#8).toNat

end Sys2Proof.Machine
end

