-- ==== Sys2Proof/Machine/Flags.lean ====
section
/-! DEFINITION. The conditions. "The core has no status flags, no condition codes and no predicate registers": each
conditional jump "performs its own comparison of two register values at the time it executes" (R14). -/

namespace Sys2Proof.Machine

/-- JMPEQ's condition (R121): the operand register against register 0 (R11). -/
def equalsRegister0 (s : State) (r : Reg) : Bool := s.reg r == s.reg 0

/-- JMPLT's condition (R122): the operand register on the left, register 0 on the right, both unsigned. -/
def lessThanRegister0 (s : State) (r : Reg) : Bool := (s.reg r).ult (s.reg 0)

end Sys2Proof.Machine
end

