-- ==== Sys2Proof/Machine/Alu.lean ====
section
/-! DEFINITION. ADDI, ADDF, OR, AND, XOR, ROT (R110 to R117). Both sources are read before the destination is written, so
the destination may be either source or both. -/

namespace Sys2Proof.Machine

/-- `(a + b) mod 256`; the carry is discarded and recorded nowhere (R110, R116). -/
def wrappingAdd (a b : Byte) : Byte := a + b

/-- `ror8(v, n)` for `0 ≤ n ≤ 7` (R7); the `& 0xFF` of the rule is the width of the byte. -/
def ror8 (v : Byte) (n : Nat) : Byte := if n = 0 then v else (v >>> n) ||| (v <<< (8 - n))

/-- ADDI (R110). -/
def execAddi (dst a b : Reg) (s : State) : StepOutcome :=
  .next (commitReg dst (wrappingAdd (s.reg a) (s.reg b)) s)

/-- ADDF (R111): always `raise Unimplemented`, whatever the operands; no register is read and no value is given. -/
def execAddf (_dst _a _b : Reg) (_s : State) : StepOutcome := raiseError .unimplemented

/-- OR (R112). -/
def execOr (dst a b : Reg) (s : State) : StepOutcome := .next (commitReg dst (s.reg a ||| s.reg b) s)

/-- AND (R113). -/
def execAnd (dst a b : Reg) (s : State) : StepOutcome := .next (commitReg dst (s.reg a &&& s.reg b) s)

/-- XOR (R114). -/
def execXor (dst a b : Reg) (s : State) : StepOutcome := .next (commitReg dst (s.reg a ^^^ s.reg b) s)

/-- ROT (R115): in place, there is no separate destination. -/
def execRot (reg : Reg) (shift : Byte) (s : State) : StepOutcome :=
  .next (commitReg reg (ror8 (s.reg reg) (rotateCount shift)) s)

end Sys2Proof.Machine
end

