-- ==== Sys2Proof/Machine/Control.lean ====
section
/-! DEFINITION. NONE, JMPEQ, JMPLT, HALT (R120 to R125). Each runs with `pc` already advanced to `p0 + 2` and never raises
an error. -/

namespace Sys2Proof.Machine

/-- NONE (R120). -/
def execNop (s : State) : StepOutcome := .next (commitNothing s)

/-- JMPEQ (R121): a jump not taken leaves `pc` at `p0 + 2`. -/
def execJmpeq (reg : Reg) (addr : Byte) (s : State) : StepOutcome :=
  .next (if equalsRegister0 s reg then commitJump (jumpTarget addr) s else commitNothing s)

/-- JMPLT (R122). -/
def execJmplt (reg : Reg) (addr : Byte) (s : State) : StepOutcome :=
  .next (if lessThanRegister0 s reg then commitJump (jumpTarget addr) s else commitNothing s)

/-- HALT (R123): it changes no state that says "halted" and pushes a `Nothing` entry (conflict C2); the `Halted`
response is given by `hostStep` in Commands.lean. -/
def execHalt (s : State) : StepOutcome := .next (commitNothing s)

end Sys2Proof.Machine
end

