-- ==== Sys2Proof/Machine/DataTransfer.lean ====
section
/-! DEFINITION. LOADM, LOADB, STOREM, MOVE, LOADP, STOREP (R100 to R105). Each runs with `pc` already advanced and never
raises an error. -/

namespace Sys2Proof.Machine

/-- LOADM (R100). -/
def execLoadm (reg : Reg) (addr : Byte) (s : State) : StepOutcome :=
  .next (commitReg reg (s.load (directAddress addr)) s)

/-- LOADB (R101). -/
def execLoadb (reg : Reg) (value : Byte) (s : State) : StepOutcome :=
  .next (commitReg reg (immediateOperand value) s)

/-- STOREM (R102). -/
def execStorem (reg : Reg) (addr : Byte) (s : State) : StepOutcome :=
  .next (commitMem (directAddress addr) (s.reg reg) s)

/-- MOVE (R103): a copy, the source is unchanged. -/
def execMove (src dst : Reg) (s : State) : StepOutcome :=
  .next (commitReg dst (s.reg src) s)

/-- LOADP (R104): the address comes from the old value of the pointer register. -/
def execLoadp (dst ptr : Reg) (s : State) : StepOutcome :=
  .next (commitReg dst (s.load (pointerAddress s ptr)) s)

/-- STOREP (R105). -/
def execStorep (src ptr : Reg) (s : State) : StepOutcome :=
  .next (commitMem (pointerAddress s ptr) (s.reg src) s)

end Sys2Proof.Machine
end

