-- ==== Sys2Proof/Machine/Dispatch.lean ====
section
/-! DEFINITION. One arm per opcode (R135): the instruction runs in the state whose `pc` is already advanced. -/

namespace Sys2Proof.Machine

def exec (i : Instr) (s : State) : Host.Outcome State Fault Refusal :=
  match i with
  | .nop => Sys2Proof.Machine.execNop s
  | .loadm reg addr => Sys2Proof.Machine.execLoadm reg addr s
  | .loadb reg value => Sys2Proof.Machine.execLoadb reg value s
  | .storem reg addr => Sys2Proof.Machine.execStorem reg addr s
  | .move src dst => Sys2Proof.Machine.execMove src dst s
  | .addi dst a b => Sys2Proof.Machine.execAddi dst a b s
  | .addf dst a b => Sys2Proof.Machine.execAddf dst a b s
  | .or dst a b => Sys2Proof.Machine.execOr dst a b s
  | .and dst a b => Sys2Proof.Machine.execAnd dst a b s
  | .xor dst a b => Sys2Proof.Machine.execXor dst a b s
  | .rot reg shift => Sys2Proof.Machine.execRot reg shift s
  | .jmpeq reg addr => Sys2Proof.Machine.execJmpeq reg addr s
  | .halt => Sys2Proof.Machine.execHalt s
  | .loadp dst ptr => Sys2Proof.Machine.execLoadp dst ptr s
  | .storep src ptr => Sys2Proof.Machine.execStorep src ptr s
  | .jmplt reg addr => Sys2Proof.Machine.execJmplt reg addr s

end Sys2Proof.Machine
end

