-- ==== Sys2Proof/Machine/Step.lean ====
section
/-! DEFINITION. The step cycle (R132): check, fetch, advance, decode, execute. -/

namespace Sys2Proof.Machine

/-- `STEP` (R132): the overflow test comes first (decision D3), then the instruction at `pc` runs with `pc` advanced.
Its answer is the document's `Result`: `next` for `Continue` and `Halted`, `fault` for the two errors. -/
def step (s : State) : Host.Outcome State Fault Refusal :=
  if canAdvance s then exec (fetchInstr s) (advance s) else raiseError .pcOverflow

/-- `s` with the instruction whose bits are `w` (R7's numbering) stored at `pc` and `pc + 1`, where the next `STEP`
fetches it. From `pc` 254 and 255 no instruction is ever fetched (R188), and `s` is unchanged. It stands for the
host's `FILL` (log entry 4). -/
def State.withFetchWord (s : State) (nbits w : Nat) : State := placeWord s (w % 2 ^ nbits)

end Sys2Proof.Machine
end

