-- ==== Sys2Proof/Machine/Assembler.lean ====
section
/-! DEFINITION. The assembler (R70 to R83): "in scope, as the toolchain the hardware's programs are written with, but not as
part of the hardware block" (R4). The machine does not use it. Source text is a list of characters. -/

namespace Sys2Proof.Machine.Asm

/-! ## Errors (R82) -/

/-- The assembly errors, and the forms of source text for which the spec states no meaning (N12). -/
inductive ErrorKind where
  | unknownMnemonic
  | malformedRegister
  | literalOutOfRange
  | missingComma
  | trailingTokens
  | invalidLabelName
  | emptyLabelName
  | duplicateLabel
  | labelAtFullCursor
  | outputOverflow
  | unresolvedLabel
  | offsetEscapesByte
  /-- a value operand, or an address after `@`, of a form the spec does not state: refused (safe) -/
  | formNotStated
deriving DecidableEq, Repr

/-- "A line-numbered diagnostic on the first error encountered"; lines count from 1 (R70). -/
structure AsmError where
  line : Nat
  kind : ErrorKind
deriving DecidableEq, Repr

/-! ## Characters and tokens -/

/-- The value of a hexadecimal digit, case-insensitive (R74, R75). -/
def hexDigit (c : Char) : Option Nat :=
  if '0' ≤ c ∧ c ≤ '9' then some (c.toNat - '0'.toNat)
  else if 'a' ≤ c ∧ c ≤ 'f' then some (c.toNat - 'a'.toNat + 10)
  else if 'A' ≤ c ∧ c ≤ 'F' then some (c.toNat - 'A'.toNat + 10)
  else none

/-- The value of a decimal digit. -/
def decDigit (c : Char) : Option Nat := if '0' ≤ c ∧ c ≤ '9' then some (c.toNat - '0'.toNat) else none

/-- A number in a base, from its digits; none when a character is no digit. -/
def numeral (digit : Char → Option Nat) (base : Nat) : Nat → List Char → Option Nat
  | acc, [] => some acc
  | acc, c :: rest =>
    match digit c with
    | some d => numeral digit base (acc * base + d) rest
    | none => none

/-- A number with at least one digit. -/
def numeralOf (digit : Char → Option Nat) (base : Nat) (digits : List Char) : Option Nat :=
  match digits with
  | [] => none
  | _ :: _ => numeral digit base 0 digits

/-- White space inside a line. -/
def isBlank (c : Char) : Bool := c == ' ' || c == '\t' || c == '\r'

/-- Drop leading white space. -/
def skipBlanks (cs : List Char) : List Char := cs.dropWhile isBlank

/-- A character that ends an operand token. -/
def endsToken (c : Char) : Bool := isBlank c || c == ','

/-- The lines of a source text. -/
def splitLines : List Char → List (List Char)
  | [] => [[]]
  | c :: rest =>
    if c = '\n' then [] :: splitLines rest
    else
      match splitLines rest with
      | [] => [[c]]
      | l :: ls => (c :: l) :: ls

/-- "Stripped of comments (`;` to end of line), trimmed" at its front (R72); trailing white space ends no token and is
skipped where a line must end. -/
def stripLine (cs : List Char) : List Char := skipBlanks (cs.takeWhile (· != ';'))

/-! ## Operands (R74, R75, R78) -/

/-- What a byte-slot of the output buffer holds: "`Const | Reference` per slot" (R71). A reference keeps the line it
stands in, for the diagnostic. -/
inductive Slot where
  | const (b : Byte)
  | ref (name : List Char) (offset : Int) (line : Nat)
deriving DecidableEq, Repr

/-- A register operand: `R` and one hexadecimal digit, case-insensitive; anything else is malformed (R74). -/
def register (token : List Char) : Except ErrorKind Reg :=
  match token with
  | [c, d] =>
    if c = 'R' ∨ c = 'r' then
      match hexDigit d with
      | some n => .ok (Fin.ofNat 16 n)
      | none => .error .malformedRegister
    else .error .malformedRegister
  | _ => .error .malformedRegister

/-- The byte of a numeric literal: `abs(value) <= 256`, stored modulo 256 (R78; 256 and -256 become 0 by D13). -/
def literal (v : Int) : Except ErrorKind Slot :=
  if v.natAbs ≤ 256 then .ok (.const (BitVec.ofInt 8 v)) else .error .literalOutOfRange

/-- A character of a label name: "alphanumeric + underscore" (R73). -/
def isNameChar (c : Char) : Bool := c.isAlphanum || c == '_'

/-- A label name: name characters, "optionally prefixed with `.`" (R73). DESIGN CHOICE (log entry 25), safe: whether a name
may begin with a digit is not stated (N12); here a definition such as `9a:` is accepted, although no operand can refer to
it, since `value` reads a token that begins with a digit as a literal. -/
def validName (name : List Char) : Bool :=
  match name with
  | '.' :: rest => !rest.isEmpty && rest.all isNameChar
  | _ => !name.isEmpty && name.all isNameChar

/-- The offset after a label name: nothing, `+N` or `-N` with a decimal `N` (R75). -/
def labelOffset (cs : List Char) : Option Int :=
  match cs with
  | [] => some 0
  | '+' :: digits => (numeralOf decDigit 10 digits).map fun n => (n : Int)
  | '-' :: digits => (numeralOf decDigit 10 digits).map fun n => -(n : Int)
  | _ => none

/-- A label reference `name`, `name+N` or `name-N` (R75). -/
def reference (line : Nat) (token : List Char) : Except ErrorKind Slot :=
  let isSign := fun c : Char => c == '+' || c == '-'
  let name := token.takeWhile (fun c => !isSign c)
  match validName name, labelOffset (token.dropWhile (fun c => !isSign c)) with
  | true, some offset => .ok (.ref name offset line)
  | _, _ => .error .formNotStated

/-- A value operand (R75): a hexadecimal literal, a decimal literal, or a label reference. A token that begins with a
digit or a minus sign is a literal. -/
def value (line : Nat) (token : List Char) : Except ErrorKind Slot :=
  match token with
  | '0' :: 'x' :: digits =>
    match numeralOf hexDigit 16 digits with
    | some n => literal n
    | none => .error .formNotStated
  | '-' :: digits =>
    match numeralOf decDigit 10 digits with
    | some n => literal (-(n : Int))
    | none => .error .formNotStated
  | c :: _ =>
    if (decDigit c).isSome then
      match numeralOf decDigit 10 token with
      | some n => literal n
      | none => .error .formNotStated
    else reference line token
  | [] => .error .formNotStated

/-! ### Reading a line's operands, left to right (R72)

Each reader takes the text that is left and gives what it read with the text after it, so the first error on a line is the
leftmost one. Which error a MISSING operand is the spec does not list (R82). DESIGN CHOICE (log entry 25), safe: it is read
as an empty token, so it is `malformedRegister` where a register is expected (`loadb`; `addi R1, R2,`) and `formNotStated`
where a value is (`loadb R1,`; `db`); where the text ends before the comma that an operand needs, it is `missingComma`
(`loadb R1`). -/

/-- The token at the front of a text, perhaps empty, and what follows it. -/
def nextToken (cs : List Char) : List Char × List Char :=
  ((skipBlanks cs).takeWhile (fun c => !endsToken c), (skipBlanks cs).dropWhile (fun c => !endsToken c))

/-- Read a register operand (R74). -/
def registerOperand (cs : List Char) : Except ErrorKind (Reg × List Char) := do
  let r ← register (nextToken cs).1
  return (r, (nextToken cs).2)

/-- Read a value operand (R75). -/
def valueOperand (line : Nat) (cs : List Char) : Except ErrorKind (Slot × List Char) := do
  let slot ← value line (nextToken cs).1
  return (slot, (nextToken cs).2)

/-- Read the comma that stands between two operands (R72). -/
def comma (cs : List Char) : Except ErrorKind (List Char) :=
  match skipBlanks cs with
  | ',' :: rest => .ok rest
  | _ => .error .missingComma

/-- Nothing is left on the line (R72: no "unexpected trailing tokens"). -/
def lineEnd (cs : List Char) : Except ErrorKind Unit :=
  if (skipBlanks cs).isEmpty then .ok () else .error .trailingTokens

/-! ## Mnemonics and emission (R76, R77, R79) -/

/-- What stands at the front of a line: an instruction's mnemonic, or the one pseudo-mnemonic (R79). -/
inductive Mnemonic where
  | instr (o : Opcode)
  | db
deriving DecidableEq, Repr

/-- The spellings of R76. Those of opcodes 0, 1, 3, 6 to 9, 11 and 13 to 15 are the spec's choice (D8). -/
def spelling : Opcode → List Char
  | .none => ['n', 'o', 'p']
  | .loadm => ['l', 'o', 'a', 'd', 'm']
  | .loadb => ['l', 'o', 'a', 'd', 'b']
  | .storem => ['s', 't', 'o', 'r', 'e', 'm']
  | .move => ['m', 'o', 'v', 'e']
  | .addi => ['a', 'd', 'd', 'i']
  | .addf => ['a', 'd', 'd', 'f']
  | .or => ['o', 'r']
  | .and => ['a', 'n', 'd']
  | .xor => ['x', 'o', 'r']
  | .rot => ['r', 'o', 't']
  | .jmpeq => ['j', 'm', 'p', 'e', 'q']
  | .halt => ['h', 'a', 'l', 't']
  | .loadp => ['l', 'o', 'a', 'd', 'p']
  | .storep => ['s', 't', 'o', 'r', 'e', 'p']
  | .jmplt => ['j', 'm', 'p', 'l', 't']

/-- The mnemonic a word spells, in lower case as in every example (R72, R76). -/
def mnemonicOf (word : List Char) : Option Mnemonic :=
  if word = ['d', 'b'] then some .db
  else (opcodeMap.toList.find? fun o => spelling o == word).map .instr

/-- The two constant bytes of an instruction (R77: the encoding of R51 to R56 with 0 in ignored fields). -/
def constSlots (i : Instr) : List Slot := [.const (encode i).1, .const (encode i).2]

/-- RI-format emission: the first byte is constant, the second is the value, perhaps a reference (R77). -/
def emitRI (line : Nat) (make : Reg → Byte → Instr) (cs : List Char) : Except ErrorKind (List Slot × List Char) := do
  let (reg, afterReg) ← registerOperand cs
  let beforeValue ← comma afterReg
  let (slot, rest) ← valueOperand line beforeValue
  return ([.const (encode (make reg 0#8)).1, slot], rest)

/-- Two-register emission, in the operand order of the assembly text. -/
def emitRR (make : Reg → Reg → Instr) (cs : List Char) : Except ErrorKind (List Slot × List Char) := do
  let (a, afterA) ← registerOperand cs
  let beforeB ← comma afterA
  let (b, rest) ← registerOperand beforeB
  return (constSlots (make a b), rest)

/-- Three-register emission. -/
def emitRRR (make : Reg → Reg → Reg → Instr) (cs : List Char) : Except ErrorKind (List Slot × List Char) := do
  let (a, afterA) ← registerOperand cs
  let beforeB ← comma afterA
  emitRR (make a) beforeB

/-- `db`'s one byte (R79). -/
def emitByte (line : Nat) (cs : List Char) : Except ErrorKind (List Slot × List Char) := do
  let (slot, rest) ← valueOperand line cs
  return ([slot], rest)

/-- "A fixed per-mnemonic emission rule matching the opcode table" (R77): the operands of the mnemonic's form (R76) are
read from the text after it; answered are the slots and the text that is left. -/
def emit (line : Nat) (m : Mnemonic) (cs : List Char) : Except ErrorKind (List Slot × List Char) :=
  match m with
  | .db => emitByte line cs
  | .instr .none => .ok (constSlots .nop, cs)
  | .instr .halt => .ok (constSlots .halt, cs)
  | .instr .loadm => emitRI line .loadm cs
  | .instr .loadb => emitRI line .loadb cs
  | .instr .storem => emitRI line .storem cs
  | .instr .rot => emitRI line .rot cs
  | .instr .jmpeq => emitRI line .jmpeq cs
  | .instr .jmplt => emitRI line .jmplt cs
  | .instr .move => emitRR .move cs
  | .instr .loadp => emitRR .loadp cs
  | .instr .storep => emitRR .storep cs
  | .instr .addi => emitRRR .addi cs
  | .instr .addf => emitRRR .addf cs
  | .instr .or => emitRRR .or cs
  | .instr .and => emitRRR .and cs
  | .instr .xor => emitRRR .xor cs

/-! ## The output buffer and the labels (R71, R73) -/

/-- The assembler's data: the slots written, newest first, the cursor, and the labels bound so far. -/
structure Output where
  slots : List (Nat × Slot)
  cursor : Nat
  labels : List (List Char × Nat)
deriving DecidableEq, Repr

/-- Nothing written, the cursor at 0 (R71). -/
def Output.empty : Output := { slots := [], cursor := 0, labels := [] }

/-- Write slots at the cursor; "writing past slot 256 is a hard failure" (R71). -/
def writeSlots : List Slot → Output → Except ErrorKind Output
  | [], out => .ok out
  | slot :: rest, out =>
    if out.cursor < Config.memSize then
      writeSlots rest { out with slots := (out.cursor, slot) :: out.slots, cursor := out.cursor + 1 }
    else .error .outputOverflow

/-- The address a definition binds: what `@` gives, a hexadecimal or decimal number that is a byte address (its form is
not stated, N12; log entry 25), or the cursor where there is no `@`. -/
def labelAddress (cursor : Nat) (cs : List Char) : Except ErrorKind Nat :=
  match cs with
  | [] => .ok cursor
  | _ :: number =>
    let parsed :=
      match number with
      | '0' :: 'x' :: digits => numeralOf hexDigit 16 digits
      | _ => numeralOf decDigit 10 number
    match parsed with
    | some n => if n < Config.memSize then .ok n else .error .formNotStated
    | none => .error .formNotStated

/-- A name that a definition may bind: not empty, valid, and not bound before (R73). -/
def checkLabelName (name : List Char) (out : Output) : Except ErrorKind Unit :=
  if name.isEmpty then .error .emptyLabelName
  else if !validName name then .error .invalidLabelName
  else if (out.labels.lookup name).isSome then .error .duplicateLabel
  else .ok ()

/-- A label definition `name` or `name@address`, the text before the colon (R73): at a full cursor it is an error; the
name is read first and then the address; an address also moves the cursor there. -/
def defineLabel (text : List Char) (out : Output) : Except ErrorKind Output :=
  if Config.memSize ≤ out.cursor then .error .labelAtFullCursor
  else do
    let name := text.takeWhile (· != '@')
    checkLabelName name out
    let address ← labelAddress out.cursor (text.dropWhile (· != '@'))
    return { out with cursor := address, labels := (name, address) :: out.labels }

/-- A mnemonic and its operands, read from left to right to the end of the line, or nothing (R72). -/
def statementPart (line : Nat) (cs : List Char) (out : Output) : Except ErrorKind Output :=
  let text := skipBlanks cs
  if text.isEmpty then .ok out
  else
    match mnemonicOf (text.takeWhile (fun c => !isBlank c)) with
    | none => .error .unknownMnemonic
    | some m => do
      let (slots, rest) ← emit line m (text.dropWhile (fun c => !isBlank c))
      lineEnd rest
      writeSlots slots out

/-- One line: an optional label definition, which is the text before the line's first colon, then an optional mnemonic with
its operands (R72). -/
def assembleLine (line : Nat) (cs : List Char) (out : Output) : Except ErrorKind Output :=
  let text := stripLine cs
  match text.dropWhile (· != ':') with
  | [] => statementPart line text out
  | _ :: rest => do
    let labelled ← defineLabel (text.takeWhile (· != ':')) out
    statementPart line rest labelled

/-- The lines in order, the first error aborting the whole program (R70). -/
def assembleLines : Nat → List (List Char) → Output → Except AsmError Output
  | _, [], out => .ok out
  | line, cs :: rest, out =>
    match assembleLine line cs out with
    | .error e => .error { line := line, kind := e }
    | .ok out' => assembleLines (line + 1) rest out'

/-! ## Resolution (R81) -/

/-- The byte of one slot: a reference is `address(name)` plus the offset, and fails outside 0..255; nothing
saturates (R81, conflict C5). A slot never written holds 0 (R71). -/
def resolveSlot (labels : List (List Char × Nat)) : Option Slot → Except AsmError Byte
  | none => .ok 0#8
  | some (.const b) => .ok b
  | some (.ref name offset line) =>
    match labels.lookup name with
    | none => .error { line := line, kind := .unresolvedLabel }
    | some address =>
      if 0 ≤ (address : Int) + offset ∧ (address : Int) + offset ≤ 255 then
        .ok (BitVec.ofInt 8 ((address : Int) + offset))
      else .error { line := line, kind := .offsetEscapesByte }

/-- The bytes of `n` slots from an address up. -/
def resolveFrom (out : Output) : Nat → Nat → Except AsmError (List Byte)
  | _, 0 => .ok []
  | a, n + 1 =>
    match resolveSlot out.labels (out.slots.lookup a) with
    | .error e => .error e
    | .ok b =>
      match resolveFrom out (a + 1) n with
      | .error e => .error e
      | .ok bytes => .ok (b :: bytes)

/-- `assemble(source_text)` (R70): a 256-byte image, or the first error with its line. -/
def assemble (source : List Char) : Except AsmError (List Byte) :=
  match assembleLines 1 (splitLines source) Output.empty with
  | .error e => .error e
  | .ok out => resolveFrom out 0 Config.memSize

/-! ## Printing, for the round trip of R77 and vector E5(d) -/

/-- A hexadecimal digit, upper case. -/
def hexChar (n : Fin 16) : Char :=
  "0123456789ABCDEF".toList.getD n.val '0'

/-- `R0` to `RF` (R74). -/
def registerText (r : Reg) : List Char := ['R', hexChar r]

/-- A byte as a hexadecimal literal (R75). -/
def byteText (b : Byte) : List Char :=
  ['0', 'x', hexChar (regOfNibble (b.extractLsb' 4 4)), hexChar (regOfNibble (b.extractLsb' 0 4))]

/-- Operands after a mnemonic, a comma and a space between them (R72). -/
def operandText : List (List Char) → List Char
  | [] => []
  | t :: rest => ' ' :: t ++ (rest.map fun u => ',' :: ' ' :: u).flatten

/-- The operands of an instruction's assembly form, in its order (R76, third column). -/
def operandTexts : Instr → List (List Char)
  | .nop => []
  | .loadm reg addr => [registerText reg, byteText addr]
  | .loadb reg value => [registerText reg, byteText value]
  | .storem reg addr => [registerText reg, byteText addr]
  | .move src dst => [registerText src, registerText dst]
  | .addi dst a b => [registerText dst, registerText a, registerText b]
  | .addf dst a b => [registerText dst, registerText a, registerText b]
  | .or dst a b => [registerText dst, registerText a, registerText b]
  | .and dst a b => [registerText dst, registerText a, registerText b]
  | .xor dst a b => [registerText dst, registerText a, registerText b]
  | .rot reg shift => [registerText reg, byteText shift]
  | .jmpeq reg addr => [registerText reg, byteText addr]
  | .halt => []
  | .loadp dst ptr => [registerText dst, registerText ptr]
  | .storep src ptr => [registerText src, registerText ptr]
  | .jmplt reg addr => [registerText reg, byteText addr]

/-- The assembly form of an instruction (R76, third column). -/
def instrText (i : Instr) : List Char := spelling i.opcode ++ operandText (operandTexts i)

end Sys2Proof.Machine.Asm
end

