-- ==== Sys2Proof/Machine/Undo.lean ====
section
/-! DEFINITION. The action logger's other half: undoing the newest entry (R143 to R147). -/

namespace Sys2Proof.Machine

/-- The write an entry asks for when it is undone (R143): the previous value goes back to its cell. -/
def restoreAction (a : Action) (s : State) : State :=
  match a with
  | .nothing => s
  | .registerSet i prev => s.writeReg i prev
  | .memorySet addr prev => s.store addr prev
  | .programCounterSet prev => s.setPc prev

/-- The fixed subtraction of `UNDO`, modulo 256 (R146, decision D6: no reachable state wraps). -/
def retreat (s : State) : State := s.setPc (s.pc - BitVec.ofNat 8 Config.instrBytes)

/-- `UNDO` (R143): pop the newest entry, restore, and only then subtract 2 from `pc`. With an empty journal the whole
command does nothing (R144, decision D5). It pushes nothing, fetches nothing and decodes nothing. -/
def undo (s : State) : State :=
  match s.journal with
  | [] => s
  | a :: rest => retreat (restoreAction a { s with journal := rest })

/-- `UNDO` issued `n` times. -/
def undoTimes : Nat → State → State
  | 0, s => s
  | n + 1, s => undoTimes n (undo s)

end Sys2Proof.Machine
end

