-- ==== Sys2Proof/Machine/Swap.lean ====
section
/-! DEFINITION. The second form of the action logger (R141), in which an action first carries the NEW value and applying
it swaps that with the old one. The machine does not use it: it stands here to be compared with the first form
(Ops.lean, Undo.lean), which R141 says it equals. -/

namespace Sys2Proof.Machine

/-- *apply* (R141): write the carried value to its target and leave the action carrying the target's old value. -/
def applyAction (a : Action) (s : State) : Action × State :=
  match a with
  | .nothing => (.nothing, s)
  | .registerSet i v => (.registerSet i (s.reg i), s.writeReg i v)
  | .memorySet addr v => (.memorySet addr (s.load addr), s.store addr v)
  | .programCounterSet v => (.programCounterSet s.pc, s.setPc v)

/-- "Computing exactly one resulting Action" (R132): the action an instruction builds, carrying the new value; none
for ADDF, which raises its error instead. -/
def intendedAction (i : Instr) (s : State) : Option Action :=
  match i with
  | .nop => some .nothing
  | .loadm reg addr => some (.registerSet reg (s.load addr))
  | .loadb reg value => some (.registerSet reg value)
  | .storem reg addr => some (.memorySet addr (s.reg reg))
  | .move src dst => some (.registerSet dst (s.reg src))
  | .addi dst a b => some (.registerSet dst (wrappingAdd (s.reg a) (s.reg b)))
  | .addf _ _ _ => none
  | .or dst a b => some (.registerSet dst (s.reg a ||| s.reg b))
  | .and dst a b => some (.registerSet dst (s.reg a &&& s.reg b))
  | .xor dst a b => some (.registerSet dst (s.reg a ^^^ s.reg b))
  | .rot reg shift => some (.registerSet reg (ror8 (s.reg reg) (rotateCount shift)))
  | .jmpeq reg addr => some (if equalsRegister0 s reg then .programCounterSet addr else .nothing)
  | .halt => some .nothing
  | .loadp dst ptr => some (.registerSet dst (s.load (s.reg ptr)))
  | .storep src ptr => some (.memorySet (s.reg ptr) (s.reg src))
  | .jmplt reg addr => some (if lessThanRegister0 s reg then .programCounterSet addr else .nothing)

/-- Executing by the swap form: apply the intended action and push what it then carries. -/
def execBySwap (i : Instr) (s : State) : StepOutcome :=
  match intendedAction i s with
  | none => raiseError .unimplemented
  | some a => .next ((applyAction a s).2.push (applyAction a s).1)

/-- Undoing by the swap form: apply the popped action a second time and discard it; then the fixed subtraction. -/
def undoBySwap (s : State) : State :=
  match s.journal with
  | [] => s
  | a :: rest => retreat (applyAction a { s with journal := rest }).2

end Sys2Proof.Machine
end

