-- ==== Sys2Proof/Machine/Commands.lean ====
section
/-! DEFINITION. The host interface (R130): the four commands that change state, with their responses, the queries that
change nothing, and a run as the host drives it (R175, R186). Each command is one atomic transition (D12). -/

namespace Sys2Proof.Machine

/-- The commands that change state (R130). There is none that writes one register, one byte or `pc`, and no redo. -/
inductive Command where
  /-- `FILL(image)` (R182) -/
  | fill (image : List Byte)
  /-- `STEP` (R132) -/
  | step
  /-- `UNDO` (R143) -/
  | undo
  /-- `RESET` (R181) -/
  | reset
deriving DecidableEq, Repr

/-- What a command answers (R130, R131). -/
inductive Response where
  /-- `FILL`, `UNDO` or `RESET` is done -/
  | done
  /-- `Continue`, the document's `Ok(true)` -/
  | continued
  /-- `Halted`, the document's `Ok(false)`: not an error -/
  | halted
  /-- `Error(e)`: the kind of error only, no payload and no code (R160, D16) -/
  | error (e : Fault)
  /-- the command is refused and nothing changes -/
  | refused (r : Refusal)
deriving DecidableEq, Repr

/-- R132: "if I is HALT then respond Halted else respond Continue". -/
def responseOf (i : Instr) : Response :=
  match i.opcode with
  | .halt => .halted
  | _ => .continued

/-- The host's `STEP` (R131, R132, R164): the state the core is left with, after an error too, and the response. The
response is the only place where halting or failing is recorded (R15, R131). -/
def hostStep (s : State) : State × Response :=
  match step s with
  | .next t => (t, responseOf (fetchInstr s))
  | .fault e => (takeError e s, .error e)
  | .refused r => (s, .refused r)

/-- `RESET` (R181): "zero registers, zero program counter, clear the journal; memory is untouched". Not logged. -/
def hostReset (s : State) : State := { State.reset with mem := s.mem }

/-- `FILL(image)` (R182): all 256 bytes are written, the rest of the state is as after `RESET`; an image longer than
256 bytes is refused and changes nothing (decision D10). Not logged. -/
def hostFill (image : List Byte) (s : State) : State × Response :=
  if wellFormedImage image then ({ State.reset with mem := Memory.fromBytes 0 image }, .done)
  else (s, .refused .imageTooLong)

/-- One command, to completion (R130). -/
def perform (c : Command) (s : State) : State × Response :=
  match c with
  | .fill image => hostFill image s
  | .step => hostStep s
  | .undo => (undo s, .done)
  | .reset => (hostReset s, .done)

/-- Commands in the order the host issues them (R130); the responses stand in the same order. -/
def performAll : List Command → State → State × List Response
  | [], s => (s, [])
  | c :: rest, s =>
    let r := perform c s
    let q := performAll rest r.1
    (q.1, r.2 :: q.2)

/-! ## Queries (R130, R148, R149): none of them changes anything -/

/-- Read any register. -/
def queryRegister (s : State) (i : Reg) : Byte := s.reg i

/-- Read any memory byte. -/
def queryMemory (s : State) (a : Byte) : Byte := s.load a

/-- Read `pc`. -/
def queryPc (s : State) : Byte := s.pc

/-- R149: the journal's entries "in order from oldest to newest". -/
def queryJournal (s : State) : List Action := s.journal.reverse

/-- `DISASSEMBLE(a)` (R148): the decoder on `mem[a]` and `mem[a + 1]`, for `a` in 0..254; 255 is refused (D11). -/
def disassemble (s : State) (a : Byte) : Except Refusal Instr :=
  if a = 255#8 then .error .noSecondByte else .ok (decode (s.load a) (s.load (a + 1#8)))

/-- The cell the host highlights (R149). -/
inductive Highlight where
  | nothing
  | register (i : Reg)
  | memory (a : Byte)
  | programCounter
deriving DecidableEq, Repr

/-- "The most recent Action's target cell" (R149). -/
def highlight (s : State) : Highlight :=
  match s.journal with
  | [] => .nothing
  | .nothing :: _ => .nothing
  | .registerSet i _ :: _ => .register i
  | .memorySet a _ :: _ => .memory a
  | .programCounterSet _ :: _ => .programCounter

/-! ## A run (R175, R186) -/

/-- How a run stands after some number of `STEP`s. -/
inductive RunEnd where
  /-- the run ended normally in this state, at the first `Halted` -/
  | halted (s : State)
  /-- the run ended in failure at the first error; the state after an error is never final (R175) -/
  | failed (e : Fault)
  /-- no `STEP` so far has ended the run -/
  | running (s : State)
deriving DecidableEq, Repr

/-- `STEP` issued at most `n` times: "the run ends normally at the first `STEP` whose response is `Halted`; it ends in
failure at the first error response" (R186). -/
def hostRun : Nat → State → RunEnd
  | 0, s => .running s
  | n + 1, s =>
    match hostStep s with
    | (t, .halted) => .halted t
    | (_, .error e) => .failed e
    | (t, _) => hostRun n t

end Sys2Proof.Machine
end

