-- ==== Sys2Proof/Safety.lean ====
section
/-! DEFINITION. The terms claims are stated in: frames, the invariant of the state, and what a safe run is. -/

namespace Sys2Proof.Machine

/-- Every register but `i` reads in `t` as in `s`. -/
def OtherRegsKept (i : Reg) (s t : State) : Prop := ∀ k : Reg, k ≠ i → t.reg k = s.reg k

/-- Every register reads in `t` as in `s`. -/
def AllRegsKept (s t : State) : Prop := ∀ k : Reg, t.reg k = s.reg k

/-- Every byte of memory but the one at `a` reads in `t` as in `s`. -/
def OtherBytesKept (a : Byte) (s t : State) : Prop := ∀ k : Byte, k ≠ a → t.load k = s.load k

/-- Every byte of memory reads in `t` as in `s`. -/
def AllBytesKept (s t : State) : Prop := ∀ k : Byte, t.load k = s.load k

/-- `s` and `t` agree in everything a program can observe: all but the journal (R18). -/
def SameButJournal (s t : State) : Prop := s.x = t.x ∧ s.pc = t.pc ∧ s.mem = t.mem

/-- What an entry on top of `s`'s history says the instruction did, from the state `s` with `pc` advanced to the state
`t` before the push (R14, R19): it changed nothing, or one register, or one byte, or `pc`; and the entry holds what
that cell held. -/
def Records (a : Action) (s t : State) : Prop :=
  match a with
  | .nothing => AllRegsKept s t ∧ AllBytesKept s t ∧ t.pc = s.pc
  | .registerSet i prev => prev = s.reg i ∧ OtherRegsKept i s t ∧ AllBytesKept s t ∧ t.pc = s.pc
  | .memorySet k prev => prev = s.load k ∧ AllRegsKept s t ∧ OtherBytesKept k s t ∧ t.pc = s.pc
  | .programCounterSet prev => prev = s.pc ∧ AllRegsKept s t ∧ AllBytesKept s t

/-- Undoing the whole journal from program counter `pc` never subtracts 2 from a value below 2 (R146): the entries
below a jump are undone from where the jump was fetched, the others from `pc - 2`. -/
def undoInRange : List Action → Nat → Bool
  | [], _ => true
  | .programCounterSet prev :: rest, _ => decide (2 ≤ prev.toNat) && undoInRange rest (prev.toNat - 2)
  | .nothing :: rest, pc => decide (2 ≤ pc) && undoInRange rest (pc - 2)
  | .registerSet _ _ :: rest, pc => decide (2 ≤ pc) && undoInRange rest (pc - 2)
  | .memorySet _ _ :: rest, pc => decide (2 ≤ pc) && undoInRange rest (pc - 2)

/-- The invariant of the state: memory is in its canonical form, and no `UNDO` to come wraps below 0. -/
def State.inv (s : State) : Bool := s.mem.wf && undoInRange s.journal s.pc.toNat

/-- A run of at most `n` `STEP`s is safe when it does not end in an execution error (R160, R186). -/
def SafeRun (n : Nat) (s : State) : Prop := ∀ e : Fault, hostRun n s ≠ .failed e

end Sys2Proof.Machine
end

