-- ==== Sys2Proof/Certificates/Slice0/Obligations.lean ====
section
/-! DEFINITION. The statements for the provers. A clause that rests on a decision of file 92 (D<n>), which is the spec's
own choice and not a rule of its source, names that decision and the log entry that declares it. -/

open Sys2Proof Sys2Proof.Machine

/-! ## Power-on, RESET, FILL -/

/-- R21, R180: registers and memory are zero at power-on. That `pc` is 0 and the journal empty there is decision D7,
log entry 2. -/
def Obligations.PowerOnStateIsZero : Prop :=
  (∀ i : Reg, State.reset.reg i = 0#8) ∧ (∀ a : Byte, State.reset.load a = 0#8) ∧
    State.reset.pc = 0#8 ∧ State.reset.journal = []

/-- R181: `RESET` zeroes the registers and `pc`, clears the journal (so that nothing of it, nor the reset itself, is
left to undo) and leaves every byte of memory as it stands. -/
def Obligations.ResetCommandClearsAllButMemory : Prop :=
  ∀ s : State, ∃ t : State, perform .reset s = (t, .done) ∧ (∀ i : Reg, t.reg i = 0#8) ∧ t.pc = 0#8 ∧
    t.journal = [] ∧ AllBytesKept s t

/-- R182: `FILL` writes all 256 bytes, the image and then zeros, and resets the rest. That a longer image is refused and
changes nothing is decision D10, log entry 6. -/
def Obligations.FillLoadsThePaddedImageAndResetsTheRest : Prop :=
  ∀ (image : List Byte) (s : State),
    (image.length ≤ 256 → ∃ t : State, perform (.fill image) s = (t, .done) ∧
      (∀ a : Byte, t.load a = image.getD a.toNat 0#8) ∧ (∀ i : Reg, t.reg i = 0#8) ∧ t.pc = 0#8 ∧ t.journal = []) ∧
    (256 < image.length → perform (.fill image) s = (s, .refused .imageTooLong))

/-- R183: after power-on, `RESET` or `FILL` the next instruction executed is the one at addresses 0 and 1 (after
power-on by decision D7, log entry 2). -/
def Obligations.ExecutionStartsAtAddressZero : Prop :=
  ∀ (s t : State) (image : List Byte), image.length ≤ 256 →
    (t = State.reset ∨ t = (perform .reset s).1 ∨ t = (perform (.fill image) s).1) →
    t.pc = 0#8 ∧ step t = exec (decode (t.load 0#8) (t.load 1#8)) { t with pc := 2#8 }

/-! ## The step cycle -/

/-- R132, R133, R58: when the two bytes at `pc` decode to `i`, the step is `i` executed with `pc` already advanced past
them. (The test before the fetch is decision D3, log entry 5; it changes nothing here.) -/
def Obligations.StepRunsTheDecodedInstruction : Prop :=
  ∀ (s : State) (i : Instr), s.pc.toNat ≤ 253 →
    decodeBytes [s.load s.pc, s.load (s.pc + 1#8)] = .ok (i, []) → step s = exec i { s with pc := s.pc + 2#8 }

/-- R51 to R59 and R132 together: where the bytes of `i` stand at `pc`, the step runs `i`. (The order of MOVE's registers is
conflict C1, log entry 19; of LOADP's and STOREP's, decision D1, log entry 1; 0 in ignored fields, D2, log entry 10.) -/
def Obligations.StepRunsTheEncodedInstruction : Prop :=
  ∀ (s : State) (i : Instr), s.pc.toNat ≤ 253 → s.load s.pc = (encode i).1 →
    s.load (s.pc + 1#8) = (encode i).2 → step s = exec i (advance s)

/-- R134: `pc` is set to `p0 + 2` after the fetch and before the instruction runs, without wrapping and without a journal
entry; from 254 and 255 the step fails with `PcOverflow` and nothing changes. (That the error at 255 is this one, and
leaves everything as it was, is decision D3, log entry 5.) -/
def Obligations.PcAdvanceIsCheckedAndOverflowChangesNothing : Prop :=
  ∀ s : State,
    (s.pc.toNat + 2 ≤ 255 → ∃ u : State, step s = exec (fetchInstr s) u ∧ u.pc.toNat = s.pc.toNat + 2 ∧
      u.x = s.x ∧ u.mem = s.mem ∧ u.journal = s.journal) ∧
    (255 < s.pc.toNat + 2 → step s = .fault .pcOverflow ∧ hostStep s = (s, .error .pcOverflow))

/-- R160, R163: a step fails with `PcOverflow` exactly when `pc` is 254 or 255, whatever stands there, and with
`Unimplemented` exactly when it can advance and the byte at `pc` has opcode 6. (The order of the test and the fetch
is decision D3, log entry 5.) -/
def Obligations.TheTwoErrorsAndTheirPriority : Prop :=
  ∀ (s : State) (e : Fault), step s = .fault e ↔
    (e = .pcOverflow ∧ 254 ≤ s.pc.toNat) ∨
    (e = .unimplemented ∧ s.pc.toNat ≤ 253 ∧ opField (s.load s.pc) = 6#4)

/-- R162: after `Error(Unimplemented)` registers, memory and journal are as before the step. That `pc` stays advanced is
decision D4, log entry 3. -/
def Obligations.UnimplementedErrorLeavesOnlyThePcAdvanced : Prop :=
  ∀ s : State, s.pc.toNat ≤ 253 → opField (s.load s.pc) = 6#4 →
    hostStep s = ({ s with pc := s.pc + 2#8 }, .error .unimplemented)

/-- R131: the four responses of `STEP`, and which instruction gives which. -/
def Obligations.StepAnswersOneOfFourResponses : Prop :=
  ∀ s : State,
    ((hostStep s).2 = .halted ↔ s.pc.toNat ≤ 253 ∧ opField (s.load s.pc) = 12#4) ∧
    ((hostStep s).2 = .continued ↔
      s.pc.toNat ≤ 253 ∧ opField (s.load s.pc) ≠ 12#4 ∧ opField (s.load s.pc) ≠ 6#4) ∧
    (∀ e : Fault, (hostStep s).2 = .error e ↔ step s = .fault e) ∧
    ((hostStep s).2 = .halted ∨ (hostStep s).2 = .continued ∨ (hostStep s).2 = .error .pcOverflow ∨
      (hostStep s).2 = .error .unimplemented)

/-- R136: every successful `STEP` pushes exactly one entry, every failed one none. (That HALT pushes one is conflict C2,
log entry 20.) -/
def Obligations.OneJournalEntryPerSuccessfulStep : Prop :=
  ∀ s : State,
    ((hostStep s).2 = .continued ∨ (hostStep s).2 = .halted →
      ∃ a : Action, (hostStep s).1.journal = a :: s.journal) ∧
    (∀ e : Fault, (hostStep s).2 = .error e → (hostStep s).1.journal = s.journal)

/-- R20(a): how each command changes the number of journal entries. (That HALT pushes an entry is conflict C2,
log entry 20. That `UNDO` on an empty journal leaves it empty needs no decision.) -/
def Obligations.JournalLengthAfterEachCommand : Prop :=
  ∀ s : State,
    ((hostStep s).2 = .continued ∨ (hostStep s).2 = .halted →
      (perform .step s).1.journal.length = s.journal.length + 1) ∧
    (∀ e : Fault, (hostStep s).2 = .error e → (perform .step s).1.journal.length = s.journal.length) ∧
    (perform .undo s).1.journal.length = s.journal.length - 1 ∧
    (perform .reset s).1.journal.length = 0 ∧
    (∀ image : List Byte, image.length ≤ 256 → (perform (.fill image) s).1.journal.length = 0)

/-- R14, R18, R19, R135: a successful step changes at most one cell beyond the advance (one register, one byte of memory, or
`pc`), and the entry it pushes names that cell and holds what it held. Which address a store changes is in the statements
about STOREM and STOREP. (HALT's entry: conflict C2, log entry 20; the entry of a write that changes no value: D15, log
entry 7.) -/
def Obligations.EachStepChangesOneCellAndRecordsIt : Prop :=
  ∀ s t : State, s.mem.wf = true → step s = .next t →
    ∃ a : Action, t.journal = a :: s.journal ∧ Records a (advance s) t

/-- R18: no instruction reads the journal. Two states that differ in their journals only make the same step: the same
error, or states that again differ in their journals only, with the same entry pushed on both. -/
def Obligations.ProgramsCannotObserveTheJournal : Prop :=
  ∀ s s' : State, SameButJournal s s' →
    (∀ e : Fault, step s = .fault e → step s' = .fault e) ∧
    (∀ t : State, step s = .next t → ∃ (t' : State) (a : Action), step s' = .next t' ∧ SameButJournal t t' ∧
      t.journal = a :: s.journal ∧ t'.journal = a :: s'.journal)

/-! ## Invariants -/

/-- The invariant holds at power-on (`pc` and journal there by decision D7, log entry 2; the form of memory is the model's
own, log entry 24). -/
def Obligations.PowerOnMeetsTheInvariant : Prop := State.reset.inv = true

/-- From every state that meets the invariant a step gives one that meets it. Its two parts are: no `UNDO` to come wraps
(R146), and memory is in the canonical form of a list, which is the model's own (log entry 24) and no rule of the spec. -/
def Obligations.StepKeepsTheInvariant : Prop :=
  ∀ s t : State, s.inv = true → step s = .next t → t.inv = true

/-- So does every host command, after an error too (R146's reachability argument; the `pc` after ADDF by decision D4,
log entry 3; `UNDO` on an empty journal by D5, log entry 9; a longer image refused by D10, log entry 6; the form of memory
is the model's own, log entry 24). -/
def Obligations.EveryCommandKeepsTheInvariant : Prop :=
  ∀ (c : Command) (s : State), s.inv = true → (perform c s).1.inv = true

/-- R146: under the invariant the subtraction of `UNDO` never goes below 0 (which decision D6, log entry 8, would wrap).
-/
def Obligations.UndoNeverWrapsUnderTheInvariant : Prop :=
  ∀ (s : State) (a : Action) (rest : List Action), s.inv = true → s.journal = a :: rest →
    (undo s).pc.toNat + 2 =
      match a with
      | .programCounterSet prev => prev.toNat
      | _ => s.pc.toNat

/-! ## The action logger -/

/-- R137: `SetReg` writes one register and pushes its previous value, whether or not the value changes (decision D15,
log entry 7). -/
def Obligations.SetRegWritesOneRegisterAndLogsItsPreviousValue : Prop :=
  ∀ (s : State) (i : Reg) (v : Byte), ∃ t : State, t = commitReg i v s ∧ t.reg i = v ∧ OtherRegsKept i s t ∧
    AllBytesKept s t ∧ t.pc = s.pc ∧ t.journal = .registerSet i (s.reg i) :: s.journal

/-- R138: `SetMem` writes one byte and pushes its address and previous value, whether or not the value changes (decision
D15, log entry 7). STOREM is the `SetMem` of its register at its direct address, STOREP that of its data register at the
address its pointer register holds. -/
def Obligations.SetMemWritesOneByteAndLogsItsPreviousValue : Prop :=
  ∀ s : State, s.mem.wf = true →
    (∀ a v : Byte, ∃ t : State, t = commitMem a v s ∧ t.load a = v ∧ OtherBytesKept a s t ∧ AllRegsKept s t ∧
      t.pc = s.pc ∧ t.journal = .memorySet a (s.load a) :: s.journal) ∧
    (∀ (reg : Reg) (addr : Byte),
      exec (.storem reg addr) s = .next (commitMem (directAddress addr) (s.reg reg) s)) ∧
    (∀ src ptr : Reg, exec (.storep src ptr) s = .next (commitMem (pointerAddress s ptr) (s.reg src) s))

/-- R139, R140: `Jump` sets `pc` and pushes the counter it discards, `Nothing` only pushes. In a step the discarded counter
is `p0 + 2`; a taken JMPEQ or JMPLT ends in `Jump`, and NONE, HALT and a jump not taken end in `Nothing`, and no other
step does either. (A jump whose target is the advanced counter still ends in `Jump`: decision D15, log entry 7. The jump's
entry has one field: conflict C3, log entry 21. HALT's entry: conflict C2, log entry 20.) -/
def Obligations.JumpAndNothingEntriesOfAStep : Prop :=
  (∀ (s : State) (target : Byte), commitJump target s =
    { s with pc := target, journal := .programCounterSet s.pc :: s.journal }) ∧
  (∀ s : State, commitNothing s = { s with journal := .nothing :: s.journal }) ∧
  ∀ s t : State, step s = .next t →
    (∀ (r : Reg) (a : Byte),
      ((fetchInstr s = .jmpeq r a ∧ s.reg r = s.reg 0) ∨
        (fetchInstr s = .jmplt r a ∧ (s.reg r).toNat < (s.reg 0).toNat)) → t = commitJump a (advance s)) ∧
    (fetchInstr s = .nop ∨ fetchInstr s = .halt ∨
        (∃ (r : Reg) (a : Byte), fetchInstr s = .jmpeq r a ∧ s.reg r ≠ s.reg 0) ∨
        (∃ (r : Reg) (a : Byte), fetchInstr s = .jmplt r a ∧ (s.reg 0).toNat ≤ (s.reg r).toNat) ↔
      t.journal = .nothing :: s.journal) ∧
    (t.journal = .nothing :: s.journal → t = commitNothing (advance s)) ∧
    (∀ prev : Byte, t.journal = .programCounterSet prev :: s.journal →
      prev.toNat = s.pc.toNat + 2 ∧ t.x = s.x ∧ t.mem = s.mem ∧
        ∃ r : Reg, (fetchInstr s = .jmpeq r t.pc ∧ s.reg r = s.reg 0) ∨
          (fetchInstr s = .jmplt r t.pc ∧ (s.reg r).toNat < (s.reg 0).toNat))

/-- R143: what `UNDO` does with each kind of entry: first the restore, then 2 is subtracted (modulo 256 by decision D6,
log entry 8; never needed under the invariant). For a jump the counter restored is the one its entry holds (conflict C4,
log entry 22). -/
def Obligations.UndoRestoresTheEntrysCellThenSubtractsTwo : Prop :=
  ∀ (s : State) (rest : List Action),
    (s.journal = .nothing :: rest → undo s = { s with pc := s.pc - 2#8, journal := rest }) ∧
    (∀ (i : Reg) (prev : Byte), s.journal = .registerSet i prev :: rest →
      (undo s).reg i = prev ∧ OtherRegsKept i s (undo s) ∧ AllBytesKept s (undo s) ∧
        (undo s).pc = s.pc - 2#8 ∧ (undo s).journal = rest) ∧
    (∀ a prev : Byte, s.mem.wf = true → s.journal = .memorySet a prev :: rest →
      (undo s).load a = prev ∧ OtherBytesKept a s (undo s) ∧ AllRegsKept s (undo s) ∧
        (undo s).pc = s.pc - 2#8 ∧ (undo s).journal = rest) ∧
    (∀ prev : Byte, s.journal = .programCounterSet prev :: rest →
      undo s = { s with pc := prev - 2#8, journal := rest })

/-- R144: `UNDO` with an empty journal changes nothing at all (decision D5, log entry 9). -/
def Obligations.UndoOnAnEmptyJournalChangesNothing : Prop :=
  ∀ s : State, s.journal = [] → perform .undo s = (s, .done)

/-- R145: `UNDO` right after a successful `STEP` gives back the state exactly. (After a jump by conflict C4, log entry 22;
after HALT by conflict C2, log entry 20.) -/
def Obligations.StepThenUndoIsTheIdentity : Prop :=
  ∀ s t : State, s.mem.wf = true → step s = .next t → undo t = s

/-- R145: N successful steps followed by N undos restore the state before the N steps. (For every N because the journal is
unbounded, decision D9, log entry 14; after jumps by conflict C4, log entry 22; after HALT by conflict C2, log entry 20.) -/
def Obligations.StepsThenAsManyUndosRestoreTheState : Prop :=
  ∀ (n : Nat) (s t : State), s.mem.wf = true → Sys2Proof.core.run n s = .next t → undoTimes n t = s

/-- R147: `UNDO` after a failed step undoes the last successful one. After `Error(Unimplemented)` (whose `pc` is decision
D4, log entry 3) a jump is undone exactly (conflict C4, log entry 22), anything else leaves `pc` 2 too high; after
`Error(PcOverflow)` the failed step counts for nothing (from `pc` 255 by decision D3, log entry 5). -/
def Obligations.UndoAfterAFailedStep : Prop :=
  ∀ (s t u : State) (a : Action), s.mem.wf = true → step s = .next t → t.journal = a :: s.journal →
    (hostStep t = (u, .error .pcOverflow) → undo u = s) ∧
    (hostStep t = (u, .error .unimplemented) →
      (∀ prev : Byte, a = .programCounterSet prev → undo u = s) ∧
      ((∀ prev : Byte, a ≠ .programCounterSet prev) → undo u = { s with pc := s.pc + 2#8 }))

/-- R141: the form of the logger that swaps gives the same machine, and applying an action twice restores the state and
the action. -/
def Obligations.SwapFormOfTheLoggerIsTheSameMachine : Prop :=
  (∀ (i : Instr) (s : State), execBySwap i s = exec i s) ∧ (∀ s : State, undoBySwap s = undo s) ∧
    (∀ (a : Action) (s : State), s.mem.wf = true →
      applyAction (applyAction a s).1 (applyAction a s).2 = (a, s))

/-! ## Data transfer -/

/-- R101, LOADB: it completes in every state; the register takes the immediate, all else is kept. (One entry even when
the value is the old one: decision D15, log entry 7.) -/
def Obligations.LoadbLoadsTheImmediate : Prop :=
  ∀ (s : State) (reg : Reg) (value : Byte), ∃ t : State, exec (.loadb reg value) s = .next t ∧
    t.reg reg = value ∧ OtherRegsKept reg s t ∧ AllBytesKept s t ∧ t.pc = s.pc ∧
    t.journal = .registerSet reg (s.reg reg) :: s.journal

/-- R100, LOADM: the register takes the byte at the direct address. (Entry: D15, log entry 7.) -/
def Obligations.LoadmLoadsTheByteAtTheAddress : Prop :=
  ∀ (s : State) (reg : Reg) (addr : Byte), ∃ t : State, exec (.loadm reg addr) s = .next t ∧
    t.reg reg = s.load addr ∧ OtherRegsKept reg s t ∧ AllBytesKept s t ∧ t.pc = s.pc ∧
    t.journal = .registerSet reg (s.reg reg) :: s.journal

/-- R104, LOADP: the destination takes the byte at the OLD value of the pointer register, also when the two are one
register. (Entry: D15, log entry 7.) -/
def Obligations.LoadpLoadsTheByteThePointerNames : Prop :=
  ∀ (s : State) (dst ptr : Reg), ∃ t : State, exec (.loadp dst ptr) s = .next t ∧
    t.reg dst = s.load (s.reg ptr) ∧ OtherRegsKept dst s t ∧ AllBytesKept s t ∧ t.pc = s.pc ∧
    t.journal = .registerSet dst (s.reg dst) :: s.journal

/-- R103, MOVE: a copy; the source keeps its value. (Entry: D15, log entry 7.) -/
def Obligations.MoveCopiesTheSource : Prop :=
  ∀ (s : State) (src dst : Reg), ∃ t : State, exec (.move src dst) s = .next t ∧
    t.reg dst = s.reg src ∧ t.reg src = s.reg src ∧ OtherRegsKept dst s t ∧ AllBytesKept s t ∧ t.pc = s.pc ∧
    t.journal = .registerSet dst (s.reg dst) :: s.journal

/-- R102, STOREM: the byte at the direct address takes the register's value, every other byte and every register is
kept, and the byte's previous value is logged. (Entry: D15, log entry 7.) -/
def Obligations.StoremStoresAtTheAddress : Prop :=
  ∀ (s : State) (reg : Reg) (addr : Byte), s.mem.wf = true → ∃ t : State, exec (.storem reg addr) s = .next t ∧
    t.load (directAddress addr) = s.reg reg ∧ OtherBytesKept (directAddress addr) s t ∧ directAddress addr = addr ∧
    AllRegsKept s t ∧ t.pc = s.pc ∧ t.journal = .memorySet addr (s.load addr) :: s.journal

/-- R105, STOREP: the byte the pointer register names takes the data register's value, also when the two are one
register. (Entry: D15, log entry 7.) -/
def Obligations.StorepStoresWhereThePointerNames : Prop :=
  ∀ (s : State) (src ptr : Reg), s.mem.wf = true → ∃ t : State, exec (.storep src ptr) s = .next t ∧
    t.load (pointerAddress s ptr) = s.reg src ∧ OtherBytesKept (pointerAddress s ptr) s t ∧
    pointerAddress s ptr = s.reg ptr ∧ AllRegsKept s t ∧ t.pc = s.pc ∧
    t.journal = .memorySet (s.reg ptr) (s.load (s.reg ptr)) :: s.journal

/-! ## Arithmetic and logic -/

/-- R110, ADDI: the sum of the two OLD source values modulo 256, also when the destination is a source. (Entry: D15, log
entry 7.) -/
def Obligations.AddiAddsModulo256 : Prop :=
  ∀ (s : State) (dst a b : Reg), ∃ t : State, exec (.addi dst a b) s = .next t ∧
    (t.reg dst).toNat = ((s.reg a).toNat + (s.reg b).toNat) % 256 ∧ OtherRegsKept dst s t ∧ AllBytesKept s t ∧
    t.pc = s.pc ∧ t.journal = .registerSet dst (s.reg dst) :: s.journal

/-- R112, R113, R114, OR, AND, XOR: bit by bit on all 8 bits. (Entry: D15, log entry 7.) -/
def Obligations.LogicInstructionsWorkBitByBit : Prop :=
  ∀ (s : State) (dst a b : Reg) (f : Bool → Bool → Bool) (i : Instr),
    (i = .or dst a b ∧ f = or) ∨ (i = .and dst a b ∧ f = and) ∨ (i = .xor dst a b ∧ f = xor) →
    ∃ t : State, exec i s = .next t ∧
      (∀ k : Nat, k < 8 → (t.reg dst).getLsbD k = f ((s.reg a).getLsbD k) ((s.reg b).getLsbD k)) ∧
      OtherRegsKept dst s t ∧ AllBytesKept s t ∧ t.pc = s.pc ∧
      t.journal = .registerSet dst (s.reg dst) :: s.journal

/-- R115 with R7's `ror8`, ROT: bit `k` of the result is bit `(k + n) mod 8` of the old value, where `n` is the count
modulo 8. (Entry: D15, log entry 7.) -/
def Obligations.RotRotatesTheRegisterRight : Prop :=
  ∀ (s : State) (reg : Reg) (shift : Byte), ∃ t : State, exec (.rot reg shift) s = .next t ∧
    (∀ k : Nat, k < 8 → (t.reg reg).getLsbD k = (s.reg reg).getLsbD ((k + shift.toNat % 8) % 8)) ∧
    OtherRegsKept reg s t ∧ AllBytesKept s t ∧ t.pc = s.pc ∧
    t.journal = .registerSet reg (s.reg reg) :: s.journal

/-- R111, ADDF: always `Unimplemented`, whatever the operands and the state; and its word decodes. -/
def Obligations.AddfAlwaysFailsAsUnimplemented : Prop :=
  ∀ (s : State) (dst a b : Reg), exec (.addf dst a b) s = .fault .unimplemented ∧
    decode (encode (.addf dst a b)).1 (encode (.addf dst a b)).2 = .addf dst a b

/-! ## Control -/

/-- R120, NONE: its word is any with opcode 0 (canonically `00 00`); it pushes `Nothing`, changes nothing else, and the
response is `Continue`. (That the 12 low bits are ignored is decision D2, log entry 10.) -/
def Obligations.NoneOnlyLogsNothing : Prop :=
  encode .nop = (0x00#8, 0x00#8) ∧ (∀ b0 b1 : Byte, opField b0 = 0#4 → decode b0 b1 = .nop) ∧
  responseOf .nop = .continued ∧
  ∀ s : State, ∃ t : State, exec .nop s = .next t ∧ AllRegsKept s t ∧ AllBytesKept s t ∧ t.pc = s.pc ∧
    t.journal = .nothing :: s.journal

/-- R123, HALT: its word is any with opcode 12 (canonically `C0 00`); it pushes `Nothing`, changes nothing else, leaves
`pc` advanced, and the response is `Halted`. (That the 12 low bits are ignored is decision D2, log entry 10; that it
pushes an entry is conflict C2, log entry 20.) -/
def Obligations.HaltOnlyLogsNothingAndAnswersHalted : Prop :=
  encode .halt = (0xC0#8, 0x00#8) ∧ (∀ b0 b1 : Byte, opField b0 = 12#4 → decode b0 b1 = .halt) ∧
  responseOf .halt = .halted ∧
  ∀ s : State, ∃ t : State, exec .halt s = .next t ∧ AllRegsKept s t ∧ AllBytesKept s t ∧ t.pc = s.pc ∧
    t.journal = .nothing :: s.journal

/-- R121, JMPEQ: taken exactly when the operand register equals register 0 (always when it IS register 0); taken, `pc`
becomes the target and the advanced counter is logged, also when the target equals it; not taken, `pc` stays and
`Nothing` is logged. A target of 254 or 255 makes the next step fail. (The entry where the target equals the advanced
counter: decision D15, log entry 7. `PcOverflow` at 255: decision D3, log entry 5.) -/
def Obligations.JmpeqJumpsExactlyWhenEqualToRegister0 : Prop :=
  ∀ (s : State) (reg : Reg) (addr : Byte),
    encode (.jmpeq reg addr) = (BitVec.ofNat 8 (0xB0 + reg.val), addr) ∧ responseOf (.jmpeq reg addr) = .continued ∧
    ∃ t : State, exec (.jmpeq reg addr) s = .next t ∧ AllRegsKept s t ∧ AllBytesKept s t ∧
      (s.reg reg = s.reg 0 → t.pc = addr ∧ t.journal = .programCounterSet s.pc :: s.journal ∧
        (254 ≤ addr.toNat → step t = .fault .pcOverflow)) ∧
      (s.reg reg ≠ s.reg 0 → t.pc = s.pc ∧ t.journal = .nothing :: s.journal) ∧
      (reg = 0 → t.pc = addr)

/-- R122, JMPLT: taken exactly when the operand register is less than register 0, both unsigned (never when it IS
register 0, never when register 0 is 0). A target of 254 or 255 makes the next step fail. (The entry where the target
equals the advanced counter: decision D15, log entry 7. `PcOverflow` at 255: decision D3, log entry 5.) -/
def Obligations.JmpltJumpsExactlyWhenBelowRegister0 : Prop :=
  ∀ (s : State) (reg : Reg) (addr : Byte),
    encode (.jmplt reg addr) = (BitVec.ofNat 8 (0xF0 + reg.val), addr) ∧ responseOf (.jmplt reg addr) = .continued ∧
    ∃ t : State, exec (.jmplt reg addr) s = .next t ∧ AllRegsKept s t ∧ AllBytesKept s t ∧
      ((s.reg reg).toNat < (s.reg 0).toNat → t.pc = addr ∧ t.journal = .programCounterSet s.pc :: s.journal ∧
        (254 ≤ addr.toNat → step t = .fault .pcOverflow)) ∧
      ((s.reg 0).toNat ≤ (s.reg reg).toNat → t.pc = s.pc ∧ t.journal = .nothing :: s.journal) ∧
      (reg = 0 ∨ s.reg 0 = 0#8 → t.pc = s.pc)

/-! ## Encoding -/

/-- R59: decoding an encoded instruction gives it back, with every operand at every value, in either nibble order of
LOADP and STOREP (R56, decision D1, log entry 1). -/
def Obligations.DecodeOfEncodeIsTheInstruction : Prop :=
  ∀ (order : Config.PtrNibbleOrder) (i : Instr),
    decodeWith order (encodeWith order i).1 (encodeWith order i).2 = i

/-- R57, R59, R61: encoding a decoded word gives the word back exactly when the ignored fields of NONE, HALT, MOVE, LOADP
and STOREP are 0 (0 there is decision D2, log entry 10). The ignored bits of ROT's count are no condition: the decoder
keeps the whole byte (decision D14, log entry 11). -/
def Obligations.EncodeOfDecodeIsTheWordExactlyWhenCanonical : Prop :=
  ∀ b0 b1 : Byte, encode (decode b0 b1) = (b0, b1) ↔ canonicalWord b0 b1 = true

/-- R53, R60: the opcode alone selects the instruction: on the word `w = byte0 ++ byte1` the row of the opcode table with
`w & 0xF000 = op << 12`, and no other. -/
def Obligations.OpcodeAloneSelectsTheInstruction : Prop :=
  ∀ (b0 b1 : Byte) (o : Opcode), (decode b0 b1).opcode = o ↔ instrWord b0 b1 &&& opcodeMask = o.tableMatch

/-- R55: the assembly order of MOVE is source, destination; in `byte1` the destination is in the high nibble and the source
in the low nibble, in decoding and in encoding; `move R1, R2` is `40 21`. (The order in the byte is conflict C1, log entry
19. That `byte0[3:0]` is ignored by the decoder and 0 from the encoder is decision D2, log entry 10.) -/
def Obligations.MoveHoldsItsDestinationInTheHighNibble : Prop :=
  (∀ b0 b1 : Byte, opField b0 = 4#4 → ∃ src dst : Reg, decode b0 b1 = .move src dst ∧
    dst.val = b1.toNat / 16 ∧ src.val = b1.toNat % 16) ∧
  (∀ src dst : Reg, encode (.move src dst) = (0x40#8, BitVec.ofNat 8 (dst.val * 16 + src.val)) ∧
    Asm.instrText (.move src dst) =
      "move ".toList ++ Asm.registerText src ++ ", ".toList ++ Asm.registerText dst) ∧
  encode (.move 1 2) = (0x40#8, 0x21#8)

/-- R61, R57: the ignored bits have no effect: the low 12 bits of NONE and HALT and `byte0[3:0]` of MOVE, LOADP and
STOREP on decoding, `byte1[7:3]` of ROT on execution (decisions D2 and D14, log entries 10 and 11). -/
def Obligations.IgnoredBitsHaveNoEffect : Prop :=
  (∀ b0 b1 c0 c1 : Byte, opField b0 = opField c0 →
    opField b0 = 0#4 ∨ opField b0 = 12#4 ∨
      ((opField b0 = 4#4 ∨ opField b0 = 13#4 ∨ opField b0 = 14#4) ∧ b1 = c1) →
    decode b0 b1 = decode c0 c1) ∧
  (∀ (s : State) (reg : Reg) (m n : Byte), m.toNat % 8 = n.toNat % 8 → exec (.rot reg m) s = exec (.rot reg n) s)

/-- Words of every family written out from R53's table. (MOVE by conflict C1, log entry 19; the two pointer forms by
decision D1, log entry 1; ROT's count above 7 by D14, log entry 11; HALT's non-zero low bits by D2, log entry 10.) -/
def Obligations.WordsOfTheSpecDecodeAsListed : Prop :=
  decode 0x14#8 0x20#8 = .loadm 4 0x20#8 ∧ decode 0x40#8 0x21#8 = .move 1 2 ∧
  decode 0xD0#8 0x31#8 = .loadp 3 1 ∧ decode 0xE0#8 0x32#8 = .storep 3 2 ∧
  decode 0x52#8 0x01#8 = .addi 2 0 1 ∧ decode 0x6C#8 0x3A#8 = .addf 12 3 10 ∧
  decode 0xA0#8 0x0B#8 = .rot 0 0x0B#8 ∧ decode 0xF1#8 0x10#8 = .jmplt 1 0x10#8 ∧ decode 0xCF#8 0x5A#8 = .halt

/-- R148: `DISASSEMBLE` is the decoder on two neighbouring bytes; at `pc` it shows what the next `STEP` runs. That 255 is
refused is decision D11, log entry 12. -/
def Obligations.DisassembleShowsTheInstructionTheStepRuns : Prop :=
  ∀ s : State,
    (∀ a : Byte, a.toNat ≤ 254 → ∃ b : Byte, b.toNat = a.toNat + 1 ∧
      disassemble s a = .ok (decode (s.load a) (s.load b))) ∧
    disassemble s 255#8 = .error .noSecondByte ∧
    (∀ i : Instr, s.pc.toNat ≤ 253 → disassemble s s.pc = .ok i → step s = exec i (advance s))

/-- R149: the journal query lists entries from oldest to newest, so a step adds its entry at the end; and the highlighted
cell is that entry's target. (HALT's entry: conflict C2, log entry 20.) -/
def Obligations.JournalQueryEndsWithTheNewestEntry : Prop :=
  ∀ s t : State, step s = .next t → ∃ a : Action, queryJournal t = queryJournal s ++ [a] ∧
    (∀ (i : Reg) (prev : Byte), a = .registerSet i prev → highlight t = .register i) ∧
    (∀ k prev : Byte, a = .memorySet k prev → highlight t = .memory k)

/-! ## The whole machine -/

/-- R39: a store, STOREM's or STOREP's, is seen by the very next fetch, byte by byte. -/
def Obligations.StoresAreSeenByTheNextFetch : Prop :=
  ∀ s t : State, s.mem.wf = true →
    (∀ (reg : Reg) (addr : Byte), exec (.storem reg addr) s = .next t →
      fetchInstr t = decode (if s.pc = directAddress addr then s.reg reg else s.load s.pc)
        (if s.pc + 1#8 = directAddress addr then s.reg reg else s.load (s.pc + 1#8))) ∧
    (∀ src ptr : Reg, exec (.storep src ptr) s = .next t →
      fetchInstr t = decode (if s.pc = pointerAddress s ptr then s.reg src else s.load s.pc)
        (if s.pc + 1#8 = pointerAddress s ptr then s.reg src else s.load (s.pc + 1#8)))

/-- R62, R188, R189, R190: over memory that is all zero every step is a NONE, until `pc` reaches 254 or, from an odd
address, 255 and the step fails; `pc` does not wrap. (`PcOverflow` at 255: decision D3, log entry 5.) -/
def Obligations.ZeroMemoryRunsToTheEndAndFails : Prop :=
  ∀ (k : Nat) (s : State), (∀ a : Byte, s.load a = 0#8) → s.pc.toNat + 2 * k ≤ 255 →
    ∃ t : State, Sys2Proof.core.run k s = .next t ∧ t.pc.toNat = s.pc.toNat + 2 * k ∧
      t.journal = List.replicate k .nothing ++ s.journal ∧ AllRegsKept s t ∧ AllBytesKept s t ∧
      (253 < s.pc.toNat + 2 * k → step t = .fault .pcOverflow)

/-- R193: `jmpeq R0` to its own address repeats forever, each iteration one successful step with its own entry. (For every
number of iterations because the journal is unbounded: decision D9, log entry 14.) -/
def Obligations.JumpToItselfNeverEnds : Prop :=
  ∀ (n : Nat) (s : State), s.pc.toNat ≤ 253 → s.load s.pc = 0xB0#8 → s.load (s.pc + 1#8) = s.pc →
    ∃ t : State, Sys2Proof.core.run n s = .next t ∧ t.pc = s.pc ∧ t.x = s.x ∧ t.mem = s.mem ∧
      t.journal = List.replicate n (.programCounterSet (s.pc + 2#8)) ++ s.journal ∧ hostRun n s = .running t

/-- R175, R186: a run of at most `n` `STEP`s ends normally exactly at a first `Halted`, in failure exactly at a first error,
every `STEP` before being a `Continue`, and is still going exactly when all `n` were `Continue`. (That an error ends the
run, as a fault of `step`, is decision D17, log entry 18.) -/
def Obligations.RunEndsAtTheFirstHaltedOrError : Prop :=
  ∀ (n : Nat) (s : State),
    (∀ t : State, hostRun n s = .halted t ↔ ∃ (k : Nat) (u : State), k < n ∧ Sys2Proof.core.run k s = .next u ∧
      hostStep u = (t, .halted) ∧
      ∀ (j : Nat) (v : State), j < k → Sys2Proof.core.run j s = .next v → (hostStep v).2 = .continued) ∧
    (∀ e : Fault, hostRun n s = .failed e ↔ ∃ (k : Nat) (u : State), k < n ∧ Sys2Proof.core.run k s = .next u ∧
      (hostStep u).2 = .error e ∧
      ∀ (j : Nat) (v : State), j < k → Sys2Proof.core.run j s = .next v → (hostStep v).2 = .continued) ∧
    (∀ t : State, hostRun n s = .running t ↔ Sys2Proof.core.run n s = .next t ∧
      ∀ (j : Nat) (v : State), j < n → Sys2Proof.core.run j s = .next v → (hostStep v).2 = .continued)

/-! ## The assembler -/

/-- R77 and vector E5(d): the assembly text of any instruction assembles to its two encoded bytes and 254 zeros, so that
decoding the image's front gives the instruction back. (Spellings: decision D8, log entry 13; order of MOVE's
registers: conflict C1, log entry 19; pointer order: D1, log entry 1; ignored fields 0: D2, log entry 10; ROT's count
emitted unmasked: D14, log entry 11; the grammar's open points: log entry 25.) -/
def Obligations.AssembledTextOfAnInstructionIsItsEncoding : Prop :=
  ∀ i : Instr, Asm.assemble (Asm.instrText i) = .ok ((encode i).1 :: (encode i).2 :: List.replicate 254 0#8)

/-- R70, R71: what assembles is an image of exactly 256 bytes, which `FILL` accepts in every state. -/
def Obligations.AssembledImagesAreAcceptedByFill : Prop :=
  ∀ (source : List Char) (image : List Byte) (s : State), Asm.assemble source = .ok image →
    image.length = 256 ∧ (perform (.fill image) s).2 = .done

/-- R83: the two worked examples of the document. -/
def Obligations.WorkedAssemblyExamples : Prop :=
  Asm.assemble "loadb R0, 5\nloadb R1, 3\naddi R2, R0, R1\nhalt".toList =
    .ok ([0x20#8, 0x05#8, 0x21#8, 0x03#8, 0x52#8, 0x01#8, 0xC0#8, 0x00#8] ++ List.replicate 248 0#8) ∧
  Asm.assemble "halt".toList = .ok ([0xC0#8, 0x00#8] ++ List.replicate 254 0#8)
end

