-- ==== Sys2Proof/Laws/Assembler.lean ====
section
/-! SUPPORT. The assembler's pieces, one lemma each: printed digits, registers and bytes read back, the three operand
forms read back from their printed text, and slots resolve to as many bytes as asked. -/

namespace Sys2Proof.Machine.Asm

/-! ## Printed characters -/

theorem hexDigit_hexChar (n : Fin 16) : hexDigit (hexChar n) = some n.val := by
  revert n; decide

theorem endsToken_hexChar (n : Fin 16) : endsToken (hexChar n) = false := by
  revert n; decide

/-- A printed digit is none of the characters that cut a line. -/
theorem hexChar_plain (n : Fin 16) : hexChar n ≠ ';' ∧ hexChar n ≠ ':' ∧ hexChar n ≠ '\n' := by
  revert n; decide

theorem register_registerText (r : Reg) : register (registerText r) = .ok r := by
  simp [register, registerText, hexDigit_hexChar]

theorem value_byteText (line : Nat) (b : Byte) : value line (byteText b) = .ok (.const b) := by
  have h : value line (byteText b) =
      literal ((regOfNibble (b.extractLsb' 4 4)).val * 16 + (regOfNibble (b.extractLsb' 0 4)).val : Nat) := by
    simp [value, byteText, numeralOf, numeral, hexDigit_hexChar]
  rw [h]
  clear h
  revert b; decide

/-! ## Reading printed operands -/

/-- What stands after a printed operand: the end of the line, or a comma. -/
def EndsOperand (rest : List Char) : Prop := rest = [] ∨ ∃ more : List Char, rest = ',' :: more

theorem endsOperand_nil : EndsOperand [] := .inl rfl
theorem endsOperand_comma (more : List Char) : EndsOperand (',' :: more) := .inr ⟨more, rfl⟩

/-- After a space, a token is read whole and what follows it is left. -/
theorem nextToken_space {t rest : List Char} (hne : t ≠ []) (h : ∀ c ∈ t, endsToken c = false)
    (hr : EndsOperand rest) : nextToken (' ' :: (t ++ rest)) = (t, rest) := by
  have hskip : skipBlanks (' ' :: (t ++ rest)) = t ++ rest := by
    cases t with
    | nil => exact absurd rfl hne
    | cons c t =>
      have hc := h c (by simp)
      simp only [endsToken, Bool.or_eq_false_iff] at hc
      simp [skipBlanks, isBlank] at hc ⊢
      simp [hc]
  have hall : ∀ c ∈ t, (!endsToken c) = true := fun c hc => by simp [h c hc]
  rw [nextToken, hskip, List.takeWhile_append_of_pos hall, List.dropWhile_append_of_pos hall]
  rcases hr with rfl | ⟨more, rfl⟩ <;> simp [endsToken]

theorem registerOperand_printed (r : Reg) {rest : List Char} (hr : EndsOperand rest) :
    registerOperand (' ' :: (registerText r ++ rest)) = .ok (r, rest) := by
  have h : nextToken (' ' :: (registerText r ++ rest)) = (registerText r, rest) :=
    nextToken_space (by simp [registerText])
      (by simp only [registerText, List.forall_mem_cons]; exact ⟨rfl, endsToken_hexChar r, by simp⟩) hr
  rw [registerOperand, h, register_registerText]
  rfl

theorem valueOperand_printed (line : Nat) (b : Byte) {rest : List Char} (hr : EndsOperand rest) :
    valueOperand line (' ' :: (byteText b ++ rest)) = .ok (.const b, rest) := by
  have h : nextToken (' ' :: (byteText b ++ rest)) = (byteText b, rest) :=
    nextToken_space (by simp [byteText])
      (by
        simp only [byteText, List.forall_mem_cons]
        exact ⟨rfl, rfl, endsToken_hexChar _, endsToken_hexChar _, by simp⟩) hr
  rw [valueOperand, h, value_byteText]
  rfl

theorem comma_comma (rest : List Char) : comma (',' :: rest) = .ok rest := rfl

theorem emitRI_printed (line : Nat) (make : Reg → Byte → Instr) (r : Reg) (b : Byte) :
    emitRI line make (operandText [registerText r, byteText b]) =
      .ok ([.const (encode (make r 0#8)).1, .const b], []) := by
  have h := valueOperand_printed line b endsOperand_nil
  rw [emitRI]
  simp only [operandText, List.map, List.flatten_cons, List.flatten_nil, List.cons_append,
    registerOperand_printed r (endsOperand_comma _), comma_comma, bind, Except.bind, h, pure, Except.pure]

theorem emitRR_printed (make : Reg → Reg → Instr) (a b : Reg) :
    emitRR make (operandText [registerText a, registerText b]) = .ok (constSlots (make a b), []) := by
  have h := registerOperand_printed b endsOperand_nil
  rw [emitRR]
  simp only [operandText, List.map, List.flatten_cons, List.flatten_nil, List.cons_append,
    registerOperand_printed a (endsOperand_comma _), comma_comma, bind, Except.bind, h, pure, Except.pure]

theorem emitRRR_printed (make : Reg → Reg → Reg → Instr) (a b c : Reg) :
    emitRRR make (operandText [registerText a, registerText b, registerText c]) =
      .ok (constSlots (make a b c), []) := by
  have h := emitRR_printed (make a) b c
  simp only [operandText, List.map, List.flatten_cons, List.flatten_nil, List.cons_append] at h
  rw [emitRRR]
  simp only [operandText, List.map, List.flatten_cons, List.flatten_nil, List.cons_append,
    registerOperand_printed a (endsOperand_comma _), comma_comma, bind, Except.bind, h]

/-! ## Lines -/

theorem splitLines_one (l : List Char) (h : ∀ c ∈ l, c ≠ '\n') : splitLines l = [l] := by
  induction l with
  | nil => rfl
  | cons c l ih =>
    rw [splitLines, if_neg (h c (by simp)), ih fun d hd => h d (by simp [hd])]

/-! ## Resolution -/

theorem resolveFrom_length {out : Output} {a n : Nat} {bytes : List Byte} (h : resolveFrom out a n = .ok bytes) :
    bytes.length = n := by
  induction n generalizing a bytes with
  | zero => cases h; rfl
  | succ n ih =>
    simp only [resolveFrom] at h
    split at h
    · cases h
    · split at h
      · cases h
      · rename_i rest hrest
        cases h
        simp [ih hrest]

/-- Slots never written resolve to zeros (R71). -/
theorem resolveFrom_unwritten (out : Output) (a n : Nat) (h : ∀ k, a ≤ k → out.slots.lookup k = none) :
    resolveFrom out a n = .ok (List.replicate n 0#8) := by
  induction n generalizing a with
  | zero => rfl
  | succ n ih =>
    rw [resolveFrom, h a (Nat.le_refl _), ih (a + 1) fun k hk => h k (by omega)]
    rfl

end Sys2Proof.Machine.Asm
end

