-- ==== Sys2Proof/Laws/Decode.lean ====
section
/-! SUPPORT. Packing and taking apart nibbles, registers and the opcode map: the facts behind the codec's round trip. -/

namespace Sys2Proof

@[simp] theorem regOfNibble_nibbleOfReg (r : Reg) : regOfNibble (nibbleOfReg r) = r := rfl

@[simp] theorem nibbleOfReg_regOfNibble (n : Nibble) : nibbleOfReg (regOfNibble n) = n := rfl

@[simp] theorem opField_packNibbles (hi lo : Nibble) : opField (packNibbles hi lo) = hi := by
  revert hi lo; decide

@[simp] theorem rField_packNibbles (hi lo : Nibble) : rField (packNibbles hi lo) = lo := by
  revert hi lo; decide

@[simp] theorem hiField_packNibbles (hi lo : Nibble) : hiField (packNibbles hi lo) = hi := opField_packNibbles hi lo

@[simp] theorem loField_packNibbles (hi lo : Nibble) : loField (packNibbles hi lo) = lo := rField_packNibbles hi lo

theorem packNibbles_fields (b : Byte) : packNibbles (opField b) (rField b) = b := by
  revert b; decide

/-- The opcode map and the numbers of the table agree, both ways (R53, R60). -/
@[simp] theorem opcodeOf_number (o : Opcode) : opcodeOf o.number = o := by
  cases o <;> rfl

@[simp] theorem number_opcodeOf (n : Nibble) : (opcodeOf n).number = n := by
  revert n; decide

end Sys2Proof
end

