-- ==== Sys2Proof/Laws/State.lean ====
section
/-! SUPPORT. One lemma per field per update of the state, and what a register read gives after each update. -/

namespace Sys2Proof.Machine

variable (s : State) (i k : Reg) (a v : Byte) (e : Action)

/-! ## Single writes -/

@[simp] theorem writeReg_pc : (s.writeReg i v).pc = s.pc := rfl
@[simp] theorem writeReg_mem : (s.writeReg i v).mem = s.mem := rfl
@[simp] theorem writeReg_journal : (s.writeReg i v).journal = s.journal := rfl
@[simp] theorem store_x : (s.store a v).x = s.x := rfl
@[simp] theorem store_pc : (s.store a v).pc = s.pc := rfl
@[simp] theorem store_mem : (s.store a v).mem = s.mem.write a v := rfl
@[simp] theorem store_journal : (s.store a v).journal = s.journal := rfl
@[simp] theorem setPc_x : (s.setPc v).x = s.x := rfl
@[simp] theorem setPc_pc : (s.setPc v).pc = v := rfl
@[simp] theorem setPc_mem : (s.setPc v).mem = s.mem := rfl
@[simp] theorem setPc_journal : (s.setPc v).journal = s.journal := rfl
@[simp] theorem push_x : (s.push e).x = s.x := rfl
@[simp] theorem push_pc : (s.push e).pc = s.pc := rfl
@[simp] theorem push_mem : (s.push e).mem = s.mem := rfl
@[simp] theorem push_journal : (s.push e).journal = e :: s.journal := rfl

/-! ## Register and memory reads after a write -/

@[simp] theorem reg_writeReg_self : (s.writeReg i v).reg i = v := by
  simp [State.reg, State.writeReg]

theorem reg_writeReg_other (h : k ≠ i) : (s.writeReg i v).reg k = s.reg k := by
  have h' : i.val ≠ k.val := fun e => h (Fin.ext e.symm)
  simp [State.reg, State.writeReg, h']

@[simp] theorem reg_store : (s.store a v).reg k = s.reg k := rfl
@[simp] theorem reg_setPc : (s.setPc v).reg k = s.reg k := rfl
@[simp] theorem reg_push : (s.push e).reg k = s.reg k := rfl
@[simp] theorem load_writeReg : (s.writeReg i v).load a = s.load a := rfl
@[simp] theorem load_setPc : (s.setPc v).load a = s.load a := rfl
@[simp] theorem load_push : (s.push e).load a = s.load a := rfl

/-! ## The commit primitives -/

@[simp] theorem commitReg_pc : (commitReg i v s).pc = s.pc := rfl
@[simp] theorem commitReg_mem : (commitReg i v s).mem = s.mem := rfl
@[simp] theorem commitReg_journal : (commitReg i v s).journal = .registerSet i (s.reg i) :: s.journal := rfl
@[simp] theorem commitMem_x : (commitMem a v s).x = s.x := rfl
@[simp] theorem commitMem_pc : (commitMem a v s).pc = s.pc := rfl
@[simp] theorem commitMem_mem : (commitMem a v s).mem = s.mem.write a v := rfl
@[simp] theorem commitMem_journal : (commitMem a v s).journal = .memorySet a (s.load a) :: s.journal := rfl
@[simp] theorem commitJump_x : (commitJump v s).x = s.x := rfl
@[simp] theorem commitJump_pc : (commitJump v s).pc = v := rfl
@[simp] theorem commitJump_mem : (commitJump v s).mem = s.mem := rfl
@[simp] theorem commitJump_journal : (commitJump v s).journal = .programCounterSet s.pc :: s.journal := rfl
@[simp] theorem commitNothing_x : (commitNothing s).x = s.x := rfl
@[simp] theorem commitNothing_pc : (commitNothing s).pc = s.pc := rfl
@[simp] theorem commitNothing_mem : (commitNothing s).mem = s.mem := rfl
@[simp] theorem commitNothing_journal : (commitNothing s).journal = .nothing :: s.journal := rfl

@[simp] theorem reg_commitReg_self : (commitReg i v s).reg i = v := reg_writeReg_self s i v

theorem reg_commitReg_other (h : k ≠ i) : (commitReg i v s).reg k = s.reg k := reg_writeReg_other s i k v h

@[simp] theorem load_commitReg : (commitReg i v s).load a = s.load a := rfl
@[simp] theorem reg_commitMem : (commitMem a v s).reg k = s.reg k := rfl
@[simp] theorem load_commitMem : (commitMem a v s).load = (s.store a v).load := rfl
@[simp] theorem reg_commitJump : (commitJump v s).reg k = s.reg k := rfl
@[simp] theorem load_commitJump : (commitJump v s).load a = s.load a := rfl
@[simp] theorem reg_commitNothing : (commitNothing s).reg k = s.reg k := rfl
@[simp] theorem load_commitNothing : (commitNothing s).load a = s.load a := rfl

/-! ## Advance, retreat, errors, host commands -/

@[simp] theorem advance_x : (advance s).x = s.x := rfl
@[simp] theorem advance_pc : (advance s).pc = s.pc + 2#8 := rfl
@[simp] theorem advance_mem : (advance s).mem = s.mem := rfl
@[simp] theorem advance_journal : (advance s).journal = s.journal := rfl
@[simp] theorem reg_advance : (advance s).reg k = s.reg k := rfl
@[simp] theorem load_advance : (advance s).load a = s.load a := rfl
@[simp] theorem retreat_x : (retreat s).x = s.x := rfl
@[simp] theorem retreat_pc : (retreat s).pc = s.pc - 2#8 := rfl
@[simp] theorem retreat_mem : (retreat s).mem = s.mem := rfl
@[simp] theorem retreat_journal : (retreat s).journal = s.journal := rfl
@[simp] theorem takeError_pcOverflow : takeError .pcOverflow s = s := rfl
@[simp] theorem takeError_unimplemented : takeError .unimplemented s = advance s := rfl
@[simp] theorem hostReset_x : (hostReset s).x = State.reset.x := rfl
@[simp] theorem hostReset_pc : (hostReset s).pc = 0#8 := rfl
@[simp] theorem hostReset_mem : (hostReset s).mem = s.mem := rfl
@[simp] theorem hostReset_journal : (hostReset s).journal = [] := rfl

@[simp] theorem reg_reset : State.reset.reg k = 0#8 := by
  simp [State.reg, State.reset]

/-- The checked advance does not wrap (R134). -/
theorem canAdvance_iff : canAdvance s = true ↔ s.pc.toNat ≤ 253 := by
  show decide (s.pc.toNat + 2 ≤ 255) = true ↔ s.pc.toNat ≤ 253
  rw [decide_eq_true_eq]
  omega

theorem advance_pc_toNat (h : canAdvance s = true) : (advance s).pc.toNat = s.pc.toNat + 2 := by
  have := (canAdvance_iff s).1 h
  simp only [advance_pc, BitVec.toNat_add, BitVec.toNat_ofNat]
  omega

end Sys2Proof.Machine
end

