-- ==== Sys2Proof/Laws/Memory.lean ====
section
/-! SUPPORT. Memory: a read after a write, the canonical form and that every operation keeps it, and that a canonical memory
is determined by what it reads as. -/

namespace Sys2Proof.Machine

/-! ## The canonical form, taken apart -/

theorem wfFrom_cons (low k : Nat) (v : Byte) (rest : Memory) :
    Memory.wfFrom low ((k, v) :: rest) = true ↔
      low ≤ k ∧ k < 256 ∧ v ≠ Memory.unlisted ∧ Memory.wfFrom (k + 1) rest = true := by
  simp only [Memory.wfFrom, Bool.and_eq_true, decide_eq_true_eq, and_assoc]
  rfl

/-- A canonical list may start lower. -/
theorem wfFrom_mono {low low' : Nat} {m : Memory} (h : Memory.wfFrom low m = true) (hl : low' ≤ low) :
    Memory.wfFrom low' m = true := by
  cases m with
  | nil => rfl
  | cons cell rest =>
    obtain ⟨k, v⟩ := cell
    rw [wfFrom_cons] at h ⊢
    exact ⟨by omega, h.2⟩

/-- Nothing is listed below the start. -/
theorem lookup_below {low j : Nat} {m : Memory} (h : Memory.wfFrom low m = true) (hj : j < low) :
    Memory.lookup m j = Memory.unlisted := by
  induction m generalizing low with
  | nil => rfl
  | cons cell rest ih =>
    obtain ⟨k, v⟩ := cell
    rw [wfFrom_cons] at h
    have : j ≠ k := by omega
    simpa [Memory.lookup, this] using ih h.2.2.2 (by omega)

/-! ## Read after write -/

theorem lookup_insert {low : Nat} {m : Memory} (h : Memory.wfFrom low m = true) (a k : Nat) (b : Byte) :
    Memory.lookup (Memory.insert m a b) k = if k = a then b else Memory.lookup m k := by
  induction m generalizing low with
  | nil =>
    by_cases hb : b = Memory.unlisted <;> by_cases hk : k = a <;> simp [Memory.insert, Memory.lookup, hb, hk]
  | cons cell rest ih =>
    obtain ⟨c, v⟩ := cell
    rw [wfFrom_cons] at h
    have hrest := ih h.2.2.2
    unfold Memory.insert
    split
    · rename_i hlt
      split
      · rename_i hb
        by_cases hk : k = a
        · have h1 := lookup_below h.2.2.2 (show a < c + 1 by omega)
          have : a ≠ c := by omega
          simp [Memory.lookup, hk, this, h1, hb]
        · simp [hk]
      · by_cases hk : k = a <;> simp [Memory.lookup, hk]
    · split
      · rename_i heq
        subst heq
        split
        · rename_i hb
          by_cases hk : k = a
          · simp [hk, lookup_below h.2.2.2 (Nat.lt_succ_self a), hb]
          · simp [Memory.lookup, hk]
        · by_cases hk : k = a <;> simp [Memory.lookup, hk]
      · rename_i hac
        by_cases hc : k = c
        · have : ¬ c = a := fun e => hac e.symm
          simp [Memory.lookup, hc, this]
        · simp [Memory.lookup, hc, hrest]

theorem read_write_same {m : Memory} (h : m.wf = true) (a v : Byte) : (m.write a v).read a = v := by
  simp [Memory.read, Memory.write, lookup_insert h]

theorem read_write_other {m : Memory} (h : m.wf = true) {a k : Byte} (hk : k ≠ a) (v : Byte) :
    (m.write a v).read k = m.read k := by
  have : k.toNat ≠ a.toNat := fun e => hk (BitVec.eq_of_toNat_eq e)
  simp [Memory.read, Memory.write, lookup_insert h, this]

theorem load_store_same {s : State} (h : s.mem.wf = true) (a v : Byte) : (s.store a v).load a = v :=
  read_write_same h a v

theorem load_store_other {s : State} (h : s.mem.wf = true) {a k : Byte} (hk : k ≠ a) (v : Byte) :
    (s.store a v).load k = s.load k :=
  read_write_other h hk v

/-! ## Every operation keeps the canonical form -/

theorem insert_keeps_wfFrom {low : Nat} {m : Memory} (h : Memory.wfFrom low m = true) {a : Nat} (hl : low ≤ a)
    (ha : a < 256) (b : Byte) : Memory.wfFrom low (Memory.insert m a b) = true := by
  induction m generalizing low with
  | nil =>
    by_cases hb : b = Memory.unlisted
    · simp [Memory.insert, hb, Memory.wfFrom]
    · rw [Memory.insert, if_neg hb, wfFrom_cons]
      exact ⟨hl, ha, hb, rfl⟩
  | cons cell rest ih =>
    obtain ⟨c, v⟩ := cell
    have h' := h
    rw [wfFrom_cons] at h'
    unfold Memory.insert
    split
    · rename_i hlt
      split
      · exact h
      · rename_i hb
        rw [wfFrom_cons, wfFrom_cons]
        exact ⟨hl, ha, hb, by omega, h'.2⟩
    · split
      · rename_i heq
        subst heq
        split
        · exact wfFrom_mono h'.2.2.2 (by omega)
        · rename_i hb
          rw [wfFrom_cons]
          exact ⟨hl, ha, hb, h'.2.2.2⟩
      · rw [wfFrom_cons]
        exact ⟨h'.1, h'.2.1, h'.2.2.1, ih h'.2.2.2 (by omega)⟩

theorem write_keeps_wf {m : Memory} (h : m.wf = true) (a v : Byte) : (m.write a v).wf = true :=
  insert_keeps_wfFrom h (Nat.zero_le _) a.isLt v

theorem store_keeps_wf {s : State} (h : s.mem.wf = true) (a v : Byte) : (s.store a v).mem.wf = true :=
  write_keeps_wf h a v

theorem fromBytes_wfFrom (start : Nat) (bytes : List Byte) (h : start + bytes.length ≤ 256) :
    Memory.wfFrom start (Memory.fromBytes start bytes) = true := by
  induction bytes generalizing start with
  | nil => rfl
  | cons b rest ih =>
    rw [List.length_cons] at h
    exact insert_keeps_wfFrom (wfFrom_mono (ih (start + 1) (by omega)) (by omega)) (Nat.le_refl _) (by omega) b

/-- `FILL` leaves memory in canonical form (R182). -/
theorem fromBytes_wf {image : List Byte} (h : wellFormedImage image = true) :
    (Memory.fromBytes 0 image).wf = true := by
  have : image.length ≤ 256 := of_decide_eq_true h
  exact fromBytes_wfFrom 0 image (by omega)

/-- What the laid out bytes read as: byte `k - start` of the list, and zero past its end. -/
theorem lookup_fromBytes (start : Nat) (bytes : List Byte) (h : start + bytes.length ≤ 256) (k : Nat) (hk : start ≤ k) :
    Memory.lookup (Memory.fromBytes start bytes) k = bytes.getD (k - start) Memory.unlisted := by
  induction bytes generalizing start with
  | nil => simp [Memory.fromBytes, Memory.lookup]
  | cons b rest ih =>
    rw [List.length_cons] at h
    rw [Memory.fromBytes, lookup_insert (fromBytes_wfFrom (start + 1) rest (by omega))]
    by_cases hs : k = start
    · simp [hs]
    · rw [if_neg hs, ih (start + 1) (by omega) (by omega)]
      have : k - start = (k - (start + 1)) + 1 := by omega
      rw [this, List.getD_cons_succ]

/-- Power-on memory is canonical. -/
theorem reset_mem_wf : State.reset.mem.wf = true := rfl

/-! ## Equal memories are equal lists -/

theorem wfFrom_ext {low : Nat} {m m' : Memory} (h : Memory.wfFrom low m = true) (h' : Memory.wfFrom low m' = true)
    (same : ∀ k, Memory.lookup m k = Memory.lookup m' k) : m = m' := by
  induction m generalizing low m' with
  | nil =>
    cases m' with
    | nil => rfl
    | cons cell' rest' =>
      obtain ⟨c', v'⟩ := cell'
      rw [wfFrom_cons] at h'
      have := same c'
      simp [Memory.lookup] at this
      exact absurd this.symm h'.2.2.1
  | cons cell rest ih =>
    obtain ⟨c, v⟩ := cell
    rw [wfFrom_cons] at h
    cases m' with
    | nil =>
      have := same c
      simp [Memory.lookup] at this
      exact absurd this h.2.2.1
    | cons cell' rest' =>
      obtain ⟨c', v'⟩ := cell'
      rw [wfFrom_cons] at h'
      have hcc : c = c' := by
        rcases Nat.lt_trichotomy c c' with hlt | heq | hgt
        · have := same c
          have hb := lookup_below h'.2.2.2 (show c < c' + 1 by omega)
          have hne : c ≠ c' := by omega
          simp [Memory.lookup, hne, hb] at this
          exact absurd this h.2.2.1
        · exact heq
        · have := same c'
          have hb := lookup_below h.2.2.2 (show c' < c + 1 by omega)
          have hne : c' ≠ c := by omega
          simp [Memory.lookup, hne, hb] at this
          exact absurd this.symm h'.2.2.1
      subst hcc
      have hv : v = v' := by simpa [Memory.lookup] using same c
      subst hv
      have hrest : rest = rest' := by
        refine ih h.2.2.2 h'.2.2.2 fun k => ?_
        by_cases hk : k = c
        · rw [hk, lookup_below h.2.2.2 (Nat.lt_succ_self c), lookup_below h'.2.2.2 (Nat.lt_succ_self c)]
        · simpa [Memory.lookup, hk] using same k
      rw [hrest]

/-- Writing a byte's old value back restores the very list (what `UNDO` does, R143). -/
theorem write_back {m : Memory} (h : m.wf = true) (a v : Byte) : (m.write a v).write a (m.read a) = m := by
  have h1 := write_keeps_wf h a v
  refine wfFrom_ext (write_keeps_wf h1 a (m.read a)) h fun k => ?_
  simp only [Memory.write, Memory.read] at h1 ⊢
  rw [lookup_insert h1, lookup_insert h]
  split
  · rename_i hk
    rw [hk]
  · rfl

end Sys2Proof.Machine
end

