-- ==== Sys2Proof/Laws/Ops.lean ====
section
/-! SUPPORT. What an instruction and a step can do, said once (R135): every meaning ends in one commit primitive, but for
ADDF, which raises its error. -/

namespace Sys2Proof.Machine

/-- The four ways an instruction can end well, from the state with `pc` advanced. -/
inductive CommitCase (s t : State) : Prop
  | reg (i : Reg) (v : Byte) (h : t = commitReg i v s)
  | mem (a v : Byte) (h : t = commitMem a v s)
  | jump (target : Byte) (h : t = commitJump target s)
  | nothing (h : t = commitNothing s)

/-- Inversion of `exec`: a next state comes from exactly one commit primitive. -/
theorem exec_next_cases {i : Instr} {s t : State} (h : exec i s = .next t) : CommitCase s t := by
  cases i with
  | nop => exact .nothing (Host.Outcome.next.inj h).symm
  | halt => exact .nothing (Host.Outcome.next.inj h).symm
  | loadm r _ => exact .reg r _ (Host.Outcome.next.inj h).symm
  | loadb r _ => exact .reg r _ (Host.Outcome.next.inj h).symm
  | move _ d => exact .reg d _ (Host.Outcome.next.inj h).symm
  | loadp d _ => exact .reg d _ (Host.Outcome.next.inj h).symm
  | addi d _ _ => exact .reg d _ (Host.Outcome.next.inj h).symm
  | or d _ _ => exact .reg d _ (Host.Outcome.next.inj h).symm
  | and d _ _ => exact .reg d _ (Host.Outcome.next.inj h).symm
  | xor d _ _ => exact .reg d _ (Host.Outcome.next.inj h).symm
  | rot r _ => exact .reg r _ (Host.Outcome.next.inj h).symm
  | storem _ _ => exact .mem _ _ (Host.Outcome.next.inj h).symm
  | storep _ _ => exact .mem _ _ (Host.Outcome.next.inj h).symm
  | addf _ _ _ => cases h
  | jmpeq _ _ =>
    have h' := (Host.Outcome.next.inj h).symm
    split at h'
    · exact .jump _ h'
    · exact .nothing h'
  | jmplt _ _ =>
    have h' := (Host.Outcome.next.inj h).symm
    split at h'
    · exact .jump _ h'
    · exact .nothing h'

/-! ## The conditions of the jumps -/

theorem equalsRegister0_iff (s : State) (r : Reg) : equalsRegister0 s r = true ↔ s.reg r = s.reg 0 := by
  rw [equalsRegister0, beq_iff_eq]

theorem lessThanRegister0_iff (s : State) (r : Reg) :
    lessThanRegister0 s r = true ↔ (s.reg r).toNat < (s.reg 0).toNat := by
  rw [lessThanRegister0, BitVec.ult_iff_lt, BitVec.lt_def]

/-! ## Faults and refusals -/

/-- Only ADDF faults, always with `unimplemented` (R160, R162). -/
theorem exec_fault_cases {i : Instr} {s : State} {e : Fault} (h : exec i s = .fault e) :
    e = .unimplemented ∧ i.opcode = .addf := by
  cases i <;> first | (cases h; exact ⟨rfl, rfl⟩) | cases h

/-- No instruction is refused. -/
theorem exec_not_refused (i : Instr) (s : State) (r : Refusal) : exec i s ≠ .refused r := by
  cases i <;> exact fun h => by cases h

theorem step_of_canAdvance {s : State} (h : canAdvance s = true) : step s = exec (fetchInstr s) (advance s) := by
  simp [step, h]

theorem step_of_overflow {s : State} (h : canAdvance s = false) : step s = .fault .pcOverflow := by
  simp [step, h, raiseError]

/-- Inversion of `step`: a next state comes from a checked advance and one commit primitive. -/
theorem step_next_cases {s t : State} (h : step s = .next t) :
    canAdvance s = true ∧ exec (fetchInstr s) (advance s) = .next t ∧ CommitCase (advance s) t := by
  cases hc : canAdvance s with
  | false => rw [step_of_overflow hc] at h; cases h
  | true =>
    rw [step_of_canAdvance hc] at h
    exact ⟨rfl, h, exec_next_cases h⟩

theorem step_not_refused (s : State) (r : Refusal) : step s ≠ .refused r := by
  cases hc : canAdvance s with
  | false => rw [step_of_overflow hc]; exact fun h => by cases h
  | true => rw [step_of_canAdvance hc]; exact exec_not_refused _ _ r

end Sys2Proof.Machine
end

