-- ==== Sys2Proof/Laws/PerInstr.lean ====
section
/-! SUPPORT. The per-instruction family `EncodeCanonical`: the encoder writes 0 in every ignored field (R59). -/

namespace Sys2Proof.Laws.EncodeCanonical

/-- The encoded word of an instruction has 0 in its ignored fields. -/
def Statement (i : Instr) : Prop := canonicalWord (encode i).1 (encode i).2 = true

/-- `canonicalWord` on a word whose first byte is packed from an opcode number and a nibble. -/
theorem canonicalWord_pack (op low : Nibble) (b : Byte) :
    canonicalWord (packNibbles op low) b =
      if op = 0x0#4 ∨ op = 0xC#4 then decide (low = 0#4 ∧ b = 0#8)
      else if op = 0x4#4 ∨ op = 0xD#4 ∨ op = 0xE#4 then decide (low = 0#4)
      else true := by
  have h1 : (packNibbles op low).extractLsb' 4 4 = op := opField_packNibbles op low
  have h2 : (packNibbles op low).extractLsb' 0 4 = low := rField_packNibbles op low
  simp only [canonicalWord, h1, h2]

theorem nop : Statement .nop := canonicalWord_pack _ _ _
theorem halt : Statement .halt := canonicalWord_pack _ _ _
theorem move (src dst : Reg) : Statement (.move src dst) := canonicalWord_pack _ _ _
theorem loadp (dst ptr : Reg) : Statement (.loadp dst ptr) := canonicalWord_pack _ _ _
theorem storep (src ptr : Reg) : Statement (.storep src ptr) := canonicalWord_pack _ _ _
theorem loadm (reg : Reg) (addr : Byte) : Statement (.loadm reg addr) := canonicalWord_pack _ _ _
theorem loadb (reg : Reg) (value : Byte) : Statement (.loadb reg value) := canonicalWord_pack _ _ _
theorem storem (reg : Reg) (addr : Byte) : Statement (.storem reg addr) := canonicalWord_pack _ _ _
theorem rot (reg : Reg) (shift : Byte) : Statement (.rot reg shift) := canonicalWord_pack _ _ _
theorem jmpeq (reg : Reg) (addr : Byte) : Statement (.jmpeq reg addr) := canonicalWord_pack _ _ _
theorem jmplt (reg : Reg) (addr : Byte) : Statement (.jmplt reg addr) := canonicalWord_pack _ _ _
theorem addi (dst a b : Reg) : Statement (.addi dst a b) := canonicalWord_pack _ _ _
theorem addf (dst a b : Reg) : Statement (.addf dst a b) := canonicalWord_pack _ _ _
theorem or (dst a b : Reg) : Statement (.or dst a b) := canonicalWord_pack _ _ _
theorem and (dst a b : Reg) : Statement (.and dst a b) := canonicalWord_pack _ _ _
theorem xor (dst a b : Reg) : Statement (.xor dst a b) := canonicalWord_pack _ _ _

end Sys2Proof.Laws.EncodeCanonical
end

