-- ==== Sys2Proof/Tests/Slice0.lean ====
section
/-! SUPPORT. Tests whose expected results are the spec's own (file 95 and the bit layouts of file 30), and a witness for
the hypotheses of every statement that has some. Each test is about one step or one command. -/

namespace Sys2Proof.Tests

open Sys2Proof.Machine

/-! ## Helpers -/

/-- Power-on with some registers and bytes set, the two bytes of an instruction at `p`, and `pc = p`. -/
def placed (p b0 b1 : Byte) (regs : List (Reg × Byte)) (cells : List (Byte × Byte)) : State :=
  let s := regs.foldl (fun s r => s.writeReg r.1 r.2) State.reset
  let s := cells.foldl (fun s c => s.store c.1 c.2) s
  ((s.store p b0).store (p + 1#8) b1).setPc p

/-- The outcome is a next state that passes a check. -/
def nextIs (o : StepOutcome) (f : State → Bool) : Bool :=
  match o with
  | .next t => f t
  | _ => false

/-- The outcome is this fault. -/
def faultIs (o : StepOutcome) (e : Fault) : Bool :=
  match o with
  | .fault e' => e' == e
  | _ => false

/-- The assembler's error, if it fails. -/
def asmError (source : String) : Option (Nat × Asm.ErrorKind) :=
  match Asm.assemble source.toList with
  | .error e => some (e.line, e.kind)
  | .ok _ => none

/-- The bytes one line puts into the output buffer, newest first. -/
def lineSlots (line : String) : Option (List Asm.Slot) :=
  match Asm.assembleLine 1 line.toList Asm.Output.empty with
  | .ok out => some (out.slots.map Prod.snd)
  | .error _ => none

/-! ## Well-formedness: an ill-formed term for each check -/

theorem test_image_of_257_bytes_is_refused : wellFormedImage (List.replicate 257 0#8) = false := by
  rw [wellFormedImage, List.length_replicate]; rfl
theorem test_image_of_256_bytes_is_accepted : wellFormedImage (List.replicate 256 0#8) = true := by
  rw [wellFormedImage, List.length_replicate]; rfl
theorem test_nonzero_ignored_bits_are_not_canonical :
    canonicalWord 0x47#8 0x21#8 = false ∧ canonicalWord 0x0A#8 0xBC#8 = false ∧ canonicalWord 0xC0#8 0x01#8 = false := by
  decide
theorem test_full_words_are_canonical : canonicalWord 0x6F#8 0xFF#8 = true ∧ canonicalWord 0x40#8 0x21#8 = true := by
  decide

/-! ## Decoding: one word for each constructor, bit by bit from R51 and R53 (op, then the fields of its format) -/

theorem test_decode_none : decode 0b00001111#8 0b11111111#8 = .nop := by decide
theorem test_decode_loadm : decode 0b00010100#8 0b00100000#8 = .loadm 4 0x20#8 := by decide
theorem test_decode_loadb : decode 0b00101010#8 0b11111111#8 = .loadb 10 0xFF#8 := by decide
theorem test_decode_storem : decode 0b00111111#8 0b00000000#8 = .storem 15 0x00#8 := by decide
theorem test_decode_move : decode 0b01000111#8 0b00100001#8 = .move 1 2 := by decide
theorem test_decode_addi : decode 0b01010010#8 0b00000001#8 = .addi 2 0 1 := by decide
theorem test_decode_addf : decode 0b01101100#8 0b00111010#8 = .addf 12 3 10 := by decide
theorem test_decode_or : decode 0b01110011#8 0b00010010#8 = .or 3 1 2 := by decide
theorem test_decode_and : decode 0b10000011#8 0b00010010#8 = .and 3 1 2 := by decide
theorem test_decode_xor : decode 0b10010011#8 0b00010010#8 = .xor 3 1 2 := by decide
theorem test_decode_rot : decode 0b10100000#8 0b00001011#8 = .rot 0 0x0B#8 := by decide
theorem test_decode_jmpeq : decode 0b10110001#8 0b00001100#8 = .jmpeq 1 0x0C#8 := by decide
theorem test_decode_halt : decode 0b11001111#8 0b01011010#8 = .halt := by decide
theorem test_decode_loadp : decode 0b11010000#8 0b00110001#8 = .loadp 3 1 := by decide
theorem test_decode_storep : decode 0b11100000#8 0b00110010#8 = .storep 3 2 := by decide
theorem test_decode_jmplt : decode 0b11110001#8 0b00010000#8 = .jmplt 1 0x10#8 := by decide

/-- The parameter's other value exchanges the two nibbles of LOADP and STOREP and nothing else (R56). -/
theorem test_decode_other_nibble_order :
    decodeWith .firstLow 0xD0#8 0x31#8 = .loadp 1 3 ∧ decodeWith .firstLow 0xE0#8 0x32#8 = .storep 2 3 ∧
      decodeWith .firstLow 0x40#8 0x21#8 = .move 1 2 := by
  decide

/-- Words of R76's last column and of the source's example E2. -/
theorem test_encode :
    encode (.loadb 0 5#8) = (0x20#8, 0x05#8) ∧ encode (.addi 2 0 1) = (0x52#8, 0x01#8) ∧
      encode .halt = (0xC0#8, 0x00#8) ∧ encode (.move 1 2) = (0x40#8, 0x21#8) ∧
      encode (.storep 3 2) = (0xE0#8, 0x32#8) ∧ encode (.jmplt 1 0x10#8) = (0xF1#8, 0x10#8) := by
  decide

/-- `w = byte0 * 256 + byte1`, as the table numbers it. -/
theorem test_decodeTableWord :
    decodeTableWord 16 0x5201 = some (.addi 2 0 1) ∧ decodeTableWord 16 0xD031 = some (.loadp 3 1) ∧
      decodeTableWord 32 0 = none := by
  decide

theorem test_truncated_bytes_are_rejected : decodeBytes [0x20#8] = .error .truncated := rfl

/-! ## One instruction, vectors of file 95 -/

/-- V-LOADM-3: address 255 is readable data. -/
theorem test_loadm : nextIs (step (placed 0#8 0x12#8 0xFF#8 [] [(0xFF#8, 0x7E#8)]))
    (fun t => t.reg 2 == 0x7E#8 && t.journal == [.registerSet 2 0#8]) = true := by decide
/-- V-LOADM-2: the instruction loads its own first byte. -/
theorem test_loadm_own_byte : nextIs (step (placed 0#8 0x11#8 0x00#8 [] [])) (fun t => t.reg 1 == 0x11#8) = true := by
  decide
/-- V-LOADB-2: an unchanged value is logged all the same (D15). -/
theorem test_loadb : nextIs (step (placed 0#8 0x21#8 0xFF#8 [(1, 0xFF#8)] []))
    (fun t => t.reg 1 == 0xFF#8 && t.pc == 2#8 && t.journal == [.registerSet 1 0xFF#8]) = true := by decide
/-- V-STOREM-3: a store over its own first byte does not affect the step. -/
theorem test_storem_over_itself : nextIs (step (placed 0x10#8 0x31#8 0x10#8 [] []))
    (fun t => t.load 0x10#8 == 0#8 && t.load 0x11#8 == 0x10#8 && t.journal == [.memorySet 0x10#8 0x31#8]) = true := by
  decide
/-- V-STOREM-1. -/
theorem test_storem : nextIs (step (placed 0#8 0x34#8 0x31#8 [(4, 0xAB#8)] [])) (fun t => t.load 0x31#8 == 0xAB#8) = true := by
  decide
/-- V-MOVE-1: destination in the high nibble (C1). -/
theorem test_move : nextIs (step (placed 0#8 0x40#8 0x21#8 [(1, 7#8), (2, 9#8)] []))
    (fun t => t.reg 2 == 7#8 && t.reg 1 == 7#8 && t.journal == [.registerSet 2 9#8]) = true := by decide
/-- V-LOADP-2: the address comes from the old value. -/
theorem test_loadp_same_register : nextIs (step (placed 0#8 0xD0#8 0x11#8 [(1, 0x20#8)] [(0x20#8, 0xAB#8)]))
    (fun t => t.reg 1 == 0xAB#8 && t.journal == [.registerSet 1 0x20#8]) = true := by decide
/-- V-LOADP-1. -/
theorem test_loadp : nextIs (step (placed 0#8 0xD0#8 0x31#8 [(1, 0x20#8)] [(0x20#8, 0xAB#8)]))
    (fun t => t.reg 3 == 0xAB#8 && t.reg 1 == 0x20#8) = true := by decide
/-- V-STOREP-1. -/
theorem test_storep : nextIs (step (placed 0#8 0xE0#8 0x32#8 [(3, 0xAB#8), (2, 0x30#8)] []))
    (fun t => t.load 0x30#8 == 0xAB#8 && t.journal == [.memorySet 0x30#8 0#8]) = true := by decide
/-- V-STOREP-2. -/
theorem test_storep_same_register : nextIs (step (placed 0#8 0xE0#8 0x22#8 [(2, 0x30#8)] [(0x30#8, 0x55#8)]))
    (fun t => t.load 0x30#8 == 0x30#8) = true := by decide
/-- V-ADDI-4: 200 + 100 = 44 modulo 256. -/
theorem test_addi_wraps : nextIs (step (placed 0#8 0x53#8 0x12#8 [(1, 0xC8#8), (2, 0x64#8)] []))
    (fun t => t.reg 3 == 0x2C#8) = true := by decide
/-- V-ADDI-5: the destination is both sources. -/
theorem test_addi_in_place : nextIs (step (placed 0#8 0x51#8 0x11#8 [(1, 0x81#8)] []))
    (fun t => t.reg 1 == 0x02#8 && t.journal == [.registerSet 1 0x81#8]) = true := by decide
/-- V-ADDF-1, V-ERR-5: the error, and what the host finds after it (D4). -/
theorem test_addf : faultIs (step (placed 0#8 0x60#8 0x12#8 [] [])) .unimplemented = true := by decide
theorem test_addf_host_step : hostStep (placed 0xFC#8 0x60#8 0x00#8 [] []) =
    ((placed 0xFC#8 0x60#8 0x00#8 [] []).setPc 0xFE#8, .error .unimplemented) := by decide
/-- V-OR-1, V-AND-1, V-XOR-1. -/
theorem test_or : nextIs (step (placed 0#8 0x73#8 0x12#8 [(1, 0xF0#8), (2, 0x3C#8)] [])) (fun t => t.reg 3 == 0xFC#8) = true := by
  decide
theorem test_and : nextIs (step (placed 0#8 0x83#8 0x12#8 [(1, 0xF0#8), (2, 0x3C#8)] [])) (fun t => t.reg 3 == 0x30#8) = true := by
  decide
theorem test_xor : nextIs (step (placed 0#8 0x93#8 0x12#8 [(1, 0xF0#8), (2, 0x3C#8)] [])) (fun t => t.reg 3 == 0xCC#8) = true := by
  decide
/-- E4 and V-ROT-6: a count of 11 rotates by 3. -/
theorem test_rot : nextIs (step (placed 0#8 0xA0#8 0x0B#8 [(0, 0xB0#8)] [])) (fun t => t.reg 0 == 0x16#8) = true := by decide
/-- V-ROT-7. -/
theorem test_rot_by_7 : nextIs (step (placed 0#8 0xA1#8 0xFF#8 [(1, 0xA5#8)] [])) (fun t => t.reg 1 == 0x4B#8) = true := by
  decide
/-- V-NONE-2. -/
theorem test_none : nextIs (step (placed 0x10#8 0x0A#8 0xBC#8 [] [])) (fun t => t.pc == 0x12#8 && t.journal == [.nothing]) = true := by
  decide
/-- V-JMPEQ-1. -/
theorem test_jmpeq_taken : nextIs (step (placed 6#8 0xB1#8 0x0C#8 [(1, 3#8), (0, 3#8)] []))
    (fun t => t.pc == 0x0C#8 && t.journal == [.programCounterSet 8#8]) = true := by decide
/-- V-JMPEQ-2. -/
theorem test_jmpeq_not_taken : nextIs (step (placed 6#8 0xB1#8 0x0C#8 [(1, 2#8), (0, 3#8)] []))
    (fun t => t.pc == 8#8 && t.journal == [.nothing]) = true := by decide
/-- V-JMPLT-3: 128 is not below 5. -/
theorem test_jmplt_is_unsigned : nextIs (step (placed 4#8 0xF1#8 0x10#8 [(1, 0x80#8), (0, 5#8)] []))
    (fun t => t.pc == 6#8 && t.journal == [.nothing]) = true := by decide
/-- V-JMPLT-1. -/
theorem test_jmplt_taken : nextIs (step (placed 4#8 0xF1#8 0x10#8 [(1, 5#8), (0, 9#8)] []))
    (fun t => t.pc == 0x10#8 && t.journal == [.programCounterSet 6#8]) = true := by decide
/-- V-HALT-2. -/
theorem test_halt : (hostStep (placed 0xFC#8 0xC0#8 0x00#8 [] [])).2 = .halted ∧
    (hostStep (placed 0xFC#8 0xC0#8 0x00#8 [] [])).1.pc = 0xFE#8 := by decide

/-! ## Errors, undo, reset, fill, queries, the host's word placement -/

/-- V-ERR-1, V-ERR-2, V-ERR-3. -/
theorem test_pc_overflow : faultIs (step (placed 0xFE#8 0x60#8 0x00#8 [] [])) .pcOverflow = true ∧
    faultIs (step (State.reset.setPc 0xFF#8)) .pcOverflow = true := by decide
/-- V-UNDO-3, the regression test the source asks for: after the undo `pc` is where the jump was fetched. -/
theorem test_undo_taken_jump :
    (undo { placed 4#8 0xB0#8 0x20#8 [] [] with pc := 0x20#8, journal := [.programCounterSet 6#8, .nothing, .nothing] }).pc = 4#8 := by
  decide
/-- V-UNDO-8: `UNDO` after a failed ADDF leaves `pc` at the ADDF. -/
theorem test_undo_after_addf :
    (undo { State.reset.writeReg 1 7#8 with pc := 4#8, journal := [.registerSet 1 0#8] }).pc = 2#8 := by decide
/-- V-RST-4. -/
theorem test_fill : (perform (.fill [0xAA#8, 0xBB#8]) (placed 4#8 0x21#8 0x07#8 [(3, 9#8)] [])) =
    ({ State.reset with mem := [(0, 0xAA#8), (1, 0xBB#8)] }, .done) := by decide
/-- V-RST-2: memory stays as the program left it. -/
theorem test_reset_keeps_memory : (perform .reset (placed 4#8 0xC0#8 0x00#8 [(1, 0xC0#8)] [])).1 =
    { State.reset with mem := [(4, 0xC0#8)] } := by decide
/-- V-ERR-7, first step, then the next: there is no error latch. -/
theorem test_no_error_latch : (performAll [.step, .step, .step]
    (hostFill [0x60#8, 0x00#8, 0x21#8, 0x07#8, 0xC0#8, 0x00#8] State.reset).1).2 = [.error .unimplemented, .continued, .halted] := by decide
/-- `DISASSEMBLE` of an ADDF succeeds (R162). -/
theorem test_disassemble : disassemble (placed 0#8 0x60#8 0x12#8 [] []) 0#8 = .ok (.addf 0 1 2) := rfl
/-- The host's placement runs the placed word first. -/
theorem test_withFetchWord : nextIs (step (State.reset.withFetchWord 16 0x2005)) (fun t => t.reg 0 == 5#8) = true := by
  decide
/-- The canonical form: writing 0 removes the entry. -/
theorem test_memory_stays_canonical : Memory.write [(3, 7#8), (9, 1#8)] 3#8 0#8 = [(9, 1#8)] := by decide

/-! ## The assembler, vectors of part 5 of file 95 -/

theorem test_assemble_negative_literal : lineSlots "loadb RA, -1" = some [.const 0xFF#8, .const 0x2A#8] := by decide
theorem test_assemble_literal_256 : lineSlots "loadb R1, 256" = some [.const 0x00#8, .const 0x21#8] := by decide
theorem test_assemble_label_and_comment :
    lineSlots "start: jmpeq r0, start+2 ; loop" = some [.ref "start".toList 2 1, .const 0xB0#8] := by decide
theorem test_assemble_errors :
    asmError "loadb R1, 257" = some (1, .literalOutOfRange) ∧ asmError "loadb R1 5" = some (1, .missingComma) ∧
      asmError "halt R1" = some (1, .trailingTokens) ∧ asmError "loadb RG, 1" = some (1, .malformedRegister) ∧
      asmError "frob R1, 2" = some (1, .unknownMnemonic) ∧
      asmError "a: halt\na: halt" = some (2, .duplicateLabel) := by
  decide
/-- R72: a line is read from left to right, so the leftmost error is the one reported. -/
theorem test_assemble_reports_the_leftmost_error :
    asmError "loadb RG 1" = some (1, .malformedRegister) ∧ asmError "loadb RG, 1 x" = some (1, .malformedRegister) ∧
      asmError "addi R1 RG, R2" = some (1, .missingComma) ∧ asmError "a!@zz: frob" = some (1, .invalidLabelName) := by
  decide
/-- C5: a reference outside 0..255 fails, nothing saturates. -/
theorem test_assemble_reference_does_not_saturate :
    Asm.resolveSlot [("a".toList, 0)] (some (.ref "a".toList (-1) 1)) = .error ⟨1, .offsetEscapesByte⟩ := by rfl

/-! ## Witnesses: each meets all hypotheses of the statement it is named after, clause by clause -/

theorem witness_FillLoadsThePaddedImageAndResetsTheRest :
    (List.replicate 256 0#8).length ≤ 256 ∧ 256 < (List.replicate 257 0#8).length := by
  rw [List.length_replicate, List.length_replicate]; decide
theorem witness_ExecutionStartsAtAddressZero :
    ∃ t₁ t₂ t₃ : State, t₁ = State.reset ∧ t₂ = (perform .reset (placed 9#8 0x20#8 0x05#8 [] [])).1 ∧
      t₃ = (perform (.fill [0xC0#8, 0x00#8]) State.reset).1 ∧ [0xC0#8, 0x00#8].length ≤ 256 := ⟨_, _, _, rfl, rfl, rfl, by decide⟩
theorem witness_StepRunsTheDecodedInstruction :
    (placed 0xFD#8 0x25#8 0x09#8 [] []).pc.toNat ≤ 253 ∧
      decodeBytes [(placed 0xFD#8 0x25#8 0x09#8 [] []).load 0xFD#8, (placed 0xFD#8 0x25#8 0x09#8 [] []).load (0xFD#8 + 1#8)] =
        .ok (.loadb 5 9#8, []) := ⟨by decide, rfl⟩
theorem witness_StepRunsTheEncodedInstruction :
    (placed 0xFD#8 0x25#8 0x09#8 [] []).pc.toNat ≤ 253 ∧
      (placed 0xFD#8 0x25#8 0x09#8 [] []).load 0xFD#8 = (encode (.loadb 5 9#8)).1 ∧
      (placed 0xFD#8 0x25#8 0x09#8 [] []).load (0xFD#8 + 1#8) = (encode (.loadb 5 9#8)).2 := by decide
theorem witness_PcAdvanceIsCheckedAndOverflowChangesNothing :
    (State.reset.setPc 253#8).pc.toNat + 2 ≤ 255 ∧ 255 < (State.reset.setPc 254#8).pc.toNat + 2 := by decide
theorem witness_TheTwoErrorsAndTheirPriority :
    254 ≤ (placed 0xFE#8 0x60#8 0x00#8 [] []).pc.toNat ∧ (placed 0xFD#8 0x6F#8 0xFF#8 [] []).pc.toNat ≤ 253 ∧
      opField ((placed 0xFD#8 0x6F#8 0xFF#8 [] []).load 0xFD#8) = 6#4 := by decide
theorem witness_UnimplementedErrorLeavesOnlyThePcAdvanced :
    (placed 0xFC#8 0x60#8 0x00#8 [] []).pc.toNat ≤ 253 ∧
      opField ((placed 0xFC#8 0x60#8 0x00#8 [] []).load (placed 0xFC#8 0x60#8 0x00#8 [] []).pc) = 6#4 := by decide
theorem witness_OneJournalEntryPerSuccessfulStep :
    (hostStep State.reset).2 = .continued ∧ (hostStep (placed 0#8 0xC0#8 0x00#8 [] [])).2 = .halted ∧
      (hostStep (State.reset.setPc 254#8)).2 = .error .pcOverflow := by decide
theorem witness_JournalLengthAfterEachCommand :
    (hostStep State.reset).2 = .continued ∧ (hostStep (placed 0#8 0x60#8 0x00#8 [] [])).2 = .error .unimplemented ∧
      ([] : List Byte).length ≤ 256 := by decide
theorem witness_EachStepChangesOneCellAndRecordsIt :
    ∃ t : State, (placed 0#8 0x34#8 0x31#8 [(4, 0xAB#8)] []).mem.wf = true ∧
      step (placed 0#8 0x34#8 0x31#8 [(4, 0xAB#8)] []) = .next t := ⟨_, by decide, rfl⟩
theorem witness_ProgramsCannotObserveTheJournal :
    SameButJournal State.reset (State.reset.push .nothing) ∧ (∃ t : State, step State.reset = .next t) ∧
      SameButJournal (State.reset.setPc 255#8) ((State.reset.setPc 255#8).push .nothing) ∧
      step (State.reset.setPc 255#8) = .fault .pcOverflow :=
  ⟨⟨rfl, rfl, rfl⟩, ⟨_, rfl⟩, ⟨rfl, rfl, rfl⟩, rfl⟩
theorem witness_StepKeepsTheInvariant :
    ∃ t : State, State.inv { placed 4#8 0x24#8 0x31#8 [] [] with journal := [.nothing, .programCounterSet 4#8] } = true ∧
      step { placed 4#8 0x24#8 0x31#8 [] [] with journal := [.nothing, .programCounterSet 4#8] } = .next t :=
  ⟨_, by decide, rfl⟩
theorem witness_EveryCommandKeepsTheInvariant :
    State.inv { placed 2#8 0x60#8 0x00#8 [] [] with journal := [.memorySet 9#8 1#8] } = true := by decide
theorem witness_UndoNeverWrapsUnderTheInvariant :
    State.inv { State.reset with pc := 2#8, journal := [.registerSet 1 0#8] } = true ∧
      State.inv { State.reset with pc := 0#8, journal := [.programCounterSet 2#8] } = true := by decide
theorem witness_SetMemWritesOneByteAndLogsItsPreviousValue :
    (placed 0#8 0x34#8 0xFF#8 [(4, 0xAB#8)] [(0xFF#8, 0x01#8)]).mem.wf = true := by decide
theorem witness_JumpAndNothingEntriesOfAStep :
    (∃ t : State, step (placed 4#8 0xB0#8 0x06#8 [] []) = .next t ∧ t.journal = .programCounterSet 6#8 :: []) ∧
      (∃ t : State, step State.reset = .next t ∧ t.journal = .nothing :: []) ∧
      (∃ t : State, step (placed 4#8 0xC0#8 0x00#8 [] []) = .next t ∧ t.journal = .nothing :: [] ∧
        fetchInstr (placed 4#8 0xC0#8 0x00#8 [] []) = .halt) ∧
      (∃ t : State, step (placed 4#8 0xB1#8 0x10#8 [(0, 1#8)] []) = .next t ∧ t.journal = .nothing :: [] ∧
        fetchInstr (placed 4#8 0xB1#8 0x10#8 [(0, 1#8)] []) = .jmpeq 1 0x10#8 ∧
        (placed 4#8 0xB1#8 0x10#8 [(0, 1#8)] []).reg 1 ≠ (placed 4#8 0xB1#8 0x10#8 [(0, 1#8)] []).reg 0) ∧
      (∃ t : State, step (placed 4#8 0xF1#8 0x10#8 [] []) = .next t ∧ t.journal = .nothing :: [] ∧
        fetchInstr (placed 4#8 0xF1#8 0x10#8 [] []) = .jmplt 1 0x10#8 ∧
        ((placed 4#8 0xF1#8 0x10#8 [] []).reg 0).toNat ≤ ((placed 4#8 0xF1#8 0x10#8 [] []).reg 1).toNat) ∧
      (∃ t : State, step (placed 4#8 0xF1#8 0x10#8 [(0, 1#8)] []) = .next t ∧
        fetchInstr (placed 4#8 0xF1#8 0x10#8 [(0, 1#8)] []) = .jmplt 1 0x10#8 ∧
        ((placed 4#8 0xF1#8 0x10#8 [(0, 1#8)] []).reg 1).toNat < ((placed 4#8 0xF1#8 0x10#8 [(0, 1#8)] []).reg 0).toNat) :=
  ⟨⟨_, rfl, by decide⟩, ⟨_, rfl, rfl⟩, ⟨_, rfl, by decide, by decide⟩, ⟨_, rfl, by decide, by decide, by decide⟩,
    ⟨_, rfl, by decide, by decide, by decide⟩, ⟨_, rfl, by decide, by decide⟩⟩
theorem witness_UndoRestoresTheEntrysCellThenSubtractsTwo :
    (State.reset.push .nothing).journal = .nothing :: [] ∧
      (State.reset.push (.registerSet 15 7#8)).journal = .registerSet 15 7#8 :: [] ∧
      (State.reset.push (.memorySet 255#8 7#8)).mem.wf = true ∧
      (State.reset.push (.memorySet 255#8 7#8)).journal = .memorySet 255#8 7#8 :: [] ∧
      (State.reset.push (.programCounterSet 1#8)).journal = .programCounterSet 1#8 :: [] := by decide
theorem witness_UndoOnAnEmptyJournalChangesNothing : (State.reset.setPc 9#8).journal = [] := rfl
theorem witness_StepThenUndoIsTheIdentity :
    ∃ t : State, (placed 0#8 0xE0#8 0x22#8 [(2, 0x30#8)] [(0x30#8, 0x55#8)]).mem.wf = true ∧
      step (placed 0#8 0xE0#8 0x22#8 [(2, 0x30#8)] [(0x30#8, 0x55#8)]) = .next t := ⟨_, by decide, rfl⟩
theorem witness_StepsThenAsManyUndosRestoreTheState :
    ∃ t : State, State.reset.mem.wf = true ∧ Sys2Proof.core.run 2 State.reset = .next t := ⟨_, rfl, rfl⟩
theorem witness_UndoAfterAFailedStep :
    (∃ t : State, step (State.reset.setPc 252#8) = .next t ∧ t.journal = .nothing :: [] ∧
      hostStep t = (t, .error .pcOverflow)) ∧
    (∃ t u : State, step (placed 0#8 0x21#8 0x07#8 [] [(2#8, 0x60#8)]) = .next t ∧
      t.journal = .registerSet 1 0#8 :: [] ∧ hostStep t = (u, .error .unimplemented)) ∧
    (∃ t u : State, step (placed 0#8 0xB0#8 0x08#8 [] [(8#8, 0x60#8)]) = .next t ∧
      t.journal = .programCounterSet 2#8 :: [] ∧ hostStep t = (u, .error .unimplemented)) :=
  ⟨⟨_, rfl, rfl, rfl⟩, ⟨_, _, rfl, by decide, rfl⟩, ⟨_, _, rfl, by decide, rfl⟩⟩
theorem witness_SwapFormOfTheLoggerIsTheSameMachine : (placed 0#8 0x21#8 0x07#8 [] []).mem.wf = true := by decide
theorem witness_StoremStoresAtTheAddress : (placed 0#8 0x34#8 0xFF#8 [(4, 0xAB#8)] []).mem.wf = true := by decide
theorem witness_StorepStoresWhereThePointerNames : (placed 0#8 0xE0#8 0x22#8 [(2, 0#8)] []).mem.wf = true := by decide
theorem witness_LogicInstructionsWorkBitByBit :
    ((Instr.or 3 1 2 = .or 3 1 2 ∧ or = or) ∨ (Instr.or 3 1 2 = .and 3 1 2 ∧ or = and) ∨
      (Instr.or 3 1 2 = .xor 3 1 2 ∧ or = xor)) ∧ 7 < 8 := ⟨.inl ⟨rfl, rfl⟩, by decide⟩
theorem witness_NoneOnlyLogsNothing : opField 0x0F#8 = 0#4 := by decide
theorem witness_HaltOnlyLogsNothingAndAnswersHalted : opField 0xCF#8 = 12#4 := by decide
theorem witness_JmpeqJumpsExactlyWhenEqualToRegister0 :
    State.reset.reg 1 = State.reset.reg 0 ∧ (State.reset.writeReg 1 1#8).reg 1 ≠ (State.reset.writeReg 1 1#8).reg 0 ∧
      254 ≤ (254#8).toNat := by decide
theorem witness_JmpltJumpsExactlyWhenBelowRegister0 :
    ((State.reset.writeReg 0 1#8).reg 1).toNat < ((State.reset.writeReg 0 1#8).reg 0).toNat ∧
      (State.reset.reg 0).toNat ≤ (State.reset.reg 1).toNat ∧ State.reset.reg 0 = 0#8 ∧ 254 ≤ (254#8).toNat := by decide
theorem witness_EncodeOfDecodeIsTheWordExactlyWhenCanonical :
    canonicalWord 0xFF#8 0xFF#8 = true ∧ canonicalWord 0xC0#8 0x01#8 = false := by decide
theorem witness_MoveHoldsItsDestinationInTheHighNibble : opField 0x4F#8 = 4#4 := by decide
theorem witness_IgnoredBitsHaveNoEffect :
    opField 0x00#8 = opField 0x0F#8 ∧ opField 0xC0#8 = 12#4 ∧ opField 0xC0#8 = opField 0xCF#8 ∧
      opField 0x40#8 = 4#4 ∧ opField 0xD0#8 = 13#4 ∧ opField 0xE0#8 = 14#4 ∧ opField 0xE0#8 = opField 0xEF#8 ∧
      (0x03#8).toNat % 8 = (0x0B#8).toNat % 8 := by decide
theorem witness_DisassembleShowsTheInstructionTheStepRuns :
    (254#8).toNat ≤ 254 ∧ (State.reset.setPc 253#8).pc.toNat ≤ 253 ∧
      disassemble (State.reset.setPc 253#8) (State.reset.setPc 253#8).pc = .ok .nop := ⟨by decide, by decide, rfl⟩
theorem witness_JournalQueryEndsWithTheNewestEntry :
    (∃ t : State, step (placed 0#8 0x25#8 0x09#8 [] []) = .next t ∧ queryJournal t = [.registerSet 5 0#8]) ∧
      (∃ t : State, step (placed 0#8 0x34#8 0x31#8 [] []) = .next t ∧ queryJournal t = [.memorySet 0x31#8 0#8]) :=
  ⟨⟨_, rfl, by decide⟩, ⟨_, rfl, by decide⟩⟩
theorem witness_StoresAreSeenByTheNextFetch :
    State.reset.mem.wf = true ∧ (∃ t : State, exec (.storem 1 0#8) State.reset = .next t ∧ State.reset.pc = directAddress 0#8) ∧
      (∃ t : State, exec (.storem 1 1#8) State.reset = .next t ∧ State.reset.pc + 1#8 = directAddress 1#8) ∧
      (∃ t : State, exec (.storep 1 2) State.reset = .next t ∧ State.reset.pc = pointerAddress State.reset 2) :=
  ⟨rfl, ⟨_, rfl, rfl⟩, ⟨_, rfl, by decide⟩, ⟨_, rfl, by decide⟩⟩
theorem witness_ZeroMemoryRunsToTheEndAndFails :
    ((∀ a : Byte, State.reset.load a = 0#8) ∧ State.reset.pc.toNat + 2 * 127 ≤ 255 ∧
      253 < State.reset.pc.toNat + 2 * 127) ∧
    ((∀ a : Byte, (State.reset.setPc 253#8).load a = 0#8) ∧ (State.reset.setPc 253#8).pc.toNat + 2 * 1 ≤ 255 ∧
      253 < (State.reset.setPc 253#8).pc.toNat + 2 * 1) :=
  ⟨⟨fun _ => rfl, by decide, by decide⟩, fun _ => rfl, by decide, by decide⟩
theorem witness_JumpToItselfNeverEnds :
    (placed 0xFD#8 0xB0#8 0xFD#8 [] []).pc.toNat ≤ 253 ∧ (placed 0xFD#8 0xB0#8 0xFD#8 [] []).load 0xFD#8 = 0xB0#8 ∧
      (placed 0xFD#8 0xB0#8 0xFD#8 [] []).load (0xFD#8 + 1#8) = 0xFD#8 := by decide
theorem witness_RunEndsAtTheFirstHaltedOrError :
    (∃ t u : State, hostRun 3 (placed 2#8 0xC0#8 0x00#8 [] [] |>.setPc 0#8) = .halted t ∧ 1 < 3 ∧
      Sys2Proof.core.run 1 (placed 2#8 0xC0#8 0x00#8 [] [] |>.setPc 0#8) = .next u ∧ hostStep u = (t, .halted) ∧
      ∀ (j : Nat) (v : State), j < 1 →
        Sys2Proof.core.run j (placed 2#8 0xC0#8 0x00#8 [] [] |>.setPc 0#8) = .next v → (hostStep v).2 = .continued) ∧
      hostRun 2 (State.reset.setPc 252#8) = .failed .pcOverflow ∧ (∃ t : State, hostRun 2 State.reset = .running t) :=
  ⟨⟨_, _, rfl, by decide, rfl, rfl, fun j v hj hr => by
    obtain rfl : j = 0 := by omega
    cases hr
    rfl⟩, rfl, ⟨_, rfl⟩⟩
theorem witness_AssembledImagesAreAcceptedByFill :
    Asm.assemble [] = .ok (List.replicate 256 0#8) :=
  Asm.resolveFrom_unwritten Asm.Output.empty 0 256 fun _ _ => rfl

end Sys2Proof.Tests
end

section
/-! PROOFS of the statements about the state (10_state.md): the journal is write-only for programs, and every command
keeps it as R18 to R20 ask. -/

namespace Sys2Proof.Machine

/-! ## An instruction is its intended action, applied and pushed -/

/-- A conditional jump commits the jump or nothing (R121, R122), as its intended action says. -/
theorem commitJump_or_commitNothing_eq_applyAction (taken : Bool) (target : Byte) (s : State) :
    (if taken then commitJump target s else commitNothing s) =
      (applyAction (if taken then .programCounterSet target else .nothing) s).2.push
        (applyAction (if taken then .programCounterSet target else .nothing) s).1 := by
  cases taken <;> rfl

/-- R132, R141: executing commits the one action the instruction computes. -/
theorem exec_eq_execBySwap (i : Instr) (s : State) : exec i s = execBySwap i s := by
  cases i with
  | jmpeq reg addr => exact congrArg _ (commitJump_or_commitNothing_eq_applyAction (equalsRegister0 s reg) addr s)
  | jmplt reg addr => exact congrArg _ (commitJump_or_commitNothing_eq_applyAction (lessThanRegister0 s reg) addr s)
  | _ => rfl

@[simp] theorem applyAction_journal (a : Action) (s : State) : (applyAction a s).2.journal = s.journal := by
  cases a <;> rfl

/-! ## States that agree in all but the journal -/

section SameButJournal

variable {s s' : State} (h : SameButJournal s s')
include h

theorem SameButJournal.x_eq : s.x = s'.x := h.1

theorem SameButJournal.pc_eq : s.pc = s'.pc := h.2.1

theorem SameButJournal.mem_eq : s.mem = s'.mem := h.2.2

theorem SameButJournal.reg_eq (i : Reg) : s.reg i = s'.reg i := by
  rw [State.reg, State.reg, h.x_eq]

theorem SameButJournal.load_eq (a : Byte) : s.load a = s'.load a := by
  rw [State.load, State.load, h.mem_eq]

theorem SameButJournal.canAdvance_eq : canAdvance s = canAdvance s' := by
  rw [canAdvance, canAdvance, h.pc_eq]

theorem SameButJournal.fetchInstr_eq : fetchInstr s = fetchInstr s' := by
  rw [fetchInstr, fetchInstr, h.pc_eq, h.load_eq, h.load_eq]

theorem SameButJournal.advance : SameButJournal (advance s) (advance s') :=
  ⟨h.x_eq, congrArg (· + 2#8) h.pc_eq, h.mem_eq⟩

theorem SameButJournal.push (a a' : Action) : SameButJournal (s.push a) (s'.push a') := h

theorem SameButJournal.equalsRegister0_eq (r : Reg) : equalsRegister0 s r = equalsRegister0 s' r := by
  rw [equalsRegister0, equalsRegister0, h.reg_eq, h.reg_eq]

theorem SameButJournal.lessThanRegister0_eq (r : Reg) : lessThanRegister0 s r = lessThanRegister0 s' r := by
  rw [lessThanRegister0, lessThanRegister0, h.reg_eq, h.reg_eq]

/-- What an instruction does is computed from registers and memory. -/
theorem SameButJournal.intendedAction_eq (i : Instr) : intendedAction i s = intendedAction i s' := by
  cases i <;> simp only [intendedAction, h.equalsRegister0_eq, h.lessThanRegister0_eq, h.reg_eq, h.load_eq]

/-- The entry an applied action leaves holds a register, a byte or `pc`. -/
theorem SameButJournal.applyAction_entry_eq (a : Action) : (applyAction a s).1 = (applyAction a s').1 := by
  cases a with
  | nothing => rfl
  | registerSet i v => exact congrArg (Action.registerSet i) (h.reg_eq i)
  | memorySet k v => exact congrArg (Action.memorySet k) (h.load_eq k)
  | programCounterSet v => exact congrArg Action.programCounterSet h.pc_eq

theorem SameButJournal.applyAction (a : Action) : SameButJournal (applyAction a s).2 (applyAction a s').2 := by
  obtain ⟨hx, hpc, hmem⟩ := h
  cases a with
  | nothing => exact ⟨hx, hpc, hmem⟩
  | registerSet i v => exact ⟨congrArg (·.set i v) hx, hpc, hmem⟩
  | memorySet k v => exact ⟨hx, hpc, congrArg (·.write k v) hmem⟩
  | programCounterSet v => exact ⟨hx, rfl, hmem⟩

end SameButJournal

/-- Two outcomes, reached over the journals `js` and `js'`, that a program cannot tell apart: the same error, or states
that agree in all but the journal, with the same entry pushed on both. -/
inductive SameOutcome (js js' : List Action) : StepOutcome → StepOutcome → Prop
  | fault (e : Fault) : SameOutcome js js' (.fault e) (.fault e)
  | next {t t' : State} (a : Action) (same : SameButJournal t t') (pushed : t.journal = a :: js)
      (pushed' : t'.journal = a :: js') : SameOutcome js js' (.next t) (.next t')

theorem exec_sameOutcome {s s' : State} (h : SameButJournal s s') (i : Instr) :
    SameOutcome s.journal s'.journal (exec i s) (exec i s') := by
  rw [exec_eq_execBySwap, exec_eq_execBySwap, execBySwap, execBySwap, ← h.intendedAction_eq i]
  cases intendedAction i s with
  | none => exact .fault .unimplemented
  | some a =>
    refine .next (applyAction a s).1 ((h.applyAction a).push _ _) ?_ ?_
    · simp
    · simp [h.applyAction_entry_eq a]

theorem step_sameOutcome {s s' : State} (h : SameButJournal s s') :
    SameOutcome s.journal s'.journal (step s) (step s') := by
  have hc' := h.canAdvance_eq
  cases hc : canAdvance s with
  | false =>
    rw [step_of_overflow hc, step_of_overflow (hc' ▸ hc)]
    exact .fault .pcOverflow
  | true =>
    rw [step_of_canAdvance hc, step_of_canAdvance (hc' ▸ hc), ← h.fetchInstr_eq]
    exact exec_sameOutcome h.advance _

/-- Settles O14: `step` reads registers, `pc` and memory only, so both states take the same action. -/
theorem programsCannotObserveTheJournal : Obligations.ProgramsCannotObserveTheJournal := by
  intro s s' h
  have hsame := step_sameOutcome h
  constructor
  · intro e he
    rw [he] at hsame
    generalize step s' = o' at hsame ⊢
    cases hsame with
    | fault => rfl
  · intro t ht
    rw [ht] at hsame
    generalize step s' = o' at hsame ⊢
    cases hsame with
    | next a same pushed pushed' => exact ⟨_, a, rfl, same, pushed, pushed'⟩

/-! ## The entry a successful step pushes -/

/-- Each commit primitive pushes one entry, which names the only cell it changes and holds what that cell held. -/
theorem CommitCase.records {s t : State} (hwf : s.mem.wf = true) (h : CommitCase s t) :
    ∃ a : Action, t.journal = a :: s.journal ∧ Records a s t := by
  cases h with
  | reg i v ht =>
    subst ht
    exact ⟨_, rfl, rfl, fun k hk => reg_commitReg_other s i k v hk, fun _ => rfl, rfl⟩
  | mem a v ht =>
    subst ht
    exact ⟨_, rfl, rfl, fun _ => rfl, fun _ hk => load_store_other hwf hk v, rfl⟩
  | jump target ht =>
    subst ht
    exact ⟨_, rfl, rfl, fun _ => rfl, fun _ => rfl⟩
  | nothing ht =>
    subst ht
    exact ⟨_, rfl, fun _ => rfl, fun _ => rfl, rfl⟩

/-- Settles O13: a step is the checked advance and one commit primitive. -/
theorem eachStepChangesOneCellAndRecordsIt : Obligations.EachStepChangesOneCellAndRecordsIt := by
  intro s t hwf hstep
  obtain ⟨-, -, hcommit⟩ := step_next_cases hstep
  exact CommitCase.records (s := advance s) hwf hcommit

/-! ## The journal after each command -/

theorem CommitCase.journal_length {s t : State} (h : CommitCase s t) : t.journal.length = s.journal.length + 1 := by
  cases h with
  | reg _ _ ht | mem _ _ ht | jump _ ht | nothing ht => subst ht; rfl

theorem step_journal_length {s t : State} (h : step s = .next t) : t.journal.length = s.journal.length + 1 := by
  obtain ⟨-, -, hcommit⟩ := step_next_cases h
  exact hcommit.journal_length

@[simp] theorem takeError_journal (e : Fault) (s : State) : (takeError e s).journal = s.journal := by
  cases e <;> rfl

theorem hostStep_of_next {s t : State} (h : step s = .next t) : hostStep s = (t, responseOf (fetchInstr s)) := by
  rw [hostStep, h]

theorem hostStep_of_fault {s : State} {e : Fault} (h : step s = .fault e) : hostStep s = (takeError e s, .error e) := by
  rw [hostStep, h]

/-- An instruction that completes answers `Continue` or `Halted` (R131). -/
theorem responseOf_ne_error (i : Instr) (e : Fault) : responseOf i ≠ .error e := by
  unfold responseOf
  split <;> simp

@[simp] theorem restoreAction_journal (a : Action) (s : State) : (restoreAction a s).journal = s.journal := by
  cases a <;> rfl

@[simp] theorem undo_journal (s : State) : (undo s).journal = s.journal.tail := by
  unfold undo
  split
  · next h => simp [h]
  · next a rest h => simp [h]

theorem hostFill_journal {image : List Byte} (h : image.length ≤ 256) (s : State) :
    (hostFill image s).1.journal = [] := by
  have hwf : wellFormedImage image = true := decide_eq_true h
  rw [hostFill, if_pos hwf]
  rfl

/-- A `STEP` adds one entry when it completes and none when it ends in an error. -/
theorem hostStep_journal_length (s : State) :
    ((hostStep s).2 = .continued ∨ (hostStep s).2 = .halted →
        (hostStep s).1.journal.length = s.journal.length + 1) ∧
      ∀ e : Fault, (hostStep s).2 = .error e → (hostStep s).1.journal.length = s.journal.length := by
  cases hs : step s with
  | next t =>
    rw [hostStep_of_next hs]
    exact ⟨fun _ => step_journal_length hs, fun e he => absurd he (responseOf_ne_error _ e)⟩
  | fault e =>
    rw [hostStep_of_fault hs]
    simp
  | refused r => exact absurd hs (step_not_refused s r)

/-- Settles O12: `STEP` by the outcome of `step`, `UNDO` by the tail it leaves, `RESET` and `FILL` by the empty
journal. -/
theorem journalLengthAfterEachCommand : Obligations.JournalLengthAfterEachCommand := by
  intro s
  obtain ⟨hdone, herror⟩ := hostStep_journal_length s
  refine ⟨hdone, herror, ?_, rfl, fun image hlen => ?_⟩
  · simp [perform]
  · simp [perform, hostFill_journal hlen]

/-! ## Power-on -/

/-- Settles O1. -/
theorem powerOnStateIsZero : Obligations.PowerOnStateIsZero :=
  ⟨reg_reset, fun _ => rfl, rfl, rfl⟩

/-- Settles O15: memory lists nothing and there is nothing to undo. -/
theorem powerOnMeetsTheInvariant : Obligations.PowerOnMeetsTheInvariant := by
  unfold Obligations.PowerOnMeetsTheInvariant State.inv
  rw [reset_mem_wf]
  rfl

end Sys2Proof.Machine
end

section
/-! PROOFS of the statements about memory (20_memory.md): a fetch reads what the store before it wrote. -/

namespace Sys2Proof.Machine

/-! ## Reads and fetches after a store -/

theorem load_store {s : State} (h : s.mem.wf = true) (a v k : Byte) :
    (s.store a v).load k = if k = a then v else s.load k := by
  split
  · next hk => rw [hk, load_store_same h]
  · next hk => exact load_store_other h hk v

/-- R39: there is one memory for bytes and instructions, so each byte of the fetched word is read through the store. -/
theorem fetchInstr_commitMem {s : State} (h : s.mem.wf = true) (a v : Byte) :
    fetchInstr (commitMem a v s) =
      decode (if s.pc = a then v else s.load s.pc) (if s.pc + 1#8 = a then v else s.load (s.pc + 1#8)) := by
  rw [fetchInstr, commitMem_pc, load_commitMem, load_store h, load_store h]

/-! ## The two stores commit one memory write -/

theorem exec_storem (reg : Reg) (addr : Byte) (s : State) :
    exec (.storem reg addr) s = .next (commitMem (directAddress addr) (s.reg reg) s) := rfl

theorem exec_storep (src ptr : Reg) (s : State) :
    exec (.storep src ptr) s = .next (commitMem (pointerAddress s ptr) (s.reg src) s) := rfl

/-- Settles O50: STOREM and STOREP each commit one memory write, and the fetch reads both its bytes through it. -/
theorem storesAreSeenByTheNextFetch : Obligations.StoresAreSeenByTheNextFetch := by
  intro s t hwf
  constructor
  · intro reg addr hexec
    rw [exec_storem] at hexec
    obtain rfl := Host.Outcome.next.inj hexec
    exact fetchInstr_commitMem hwf (directAddress addr) (s.reg reg)
  · intro src ptr hexec
    rw [exec_storep] at hexec
    obtain rfl := Host.Outcome.next.inj hexec
    exact fetchInstr_commitMem hwf (pointerAddress s ptr) (s.reg src)

end Sys2Proof.Machine
end

section
/-! PROOFS of the statements about the encoding (30_encoding.md): decoding inverts encoding, the opcode alone selects the
instruction, ignored bits have no effect, and zero memory is a run of NONEs. -/

namespace Sys2Proof

/-! ## The decoder, an equation per row of the opcode table (R53, R58) -/

section DecoderEquations

variable (order : Config.PtrNibbleOrder) {b0 : Byte} (b1 : Byte)

theorem decodeWith_of_none (h : opField b0 = Opcode.none.number) : decodeWith order b0 b1 = .nop := by
  simp only [decodeWith, h, opcodeOf_number]

theorem decodeWith_of_loadm (h : opField b0 = Opcode.loadm.number) :
    decodeWith order b0 b1 = .loadm (regOfNibble (rField b0)) b1 := by
  simp only [decodeWith, h, opcodeOf_number]

theorem decodeWith_of_loadb (h : opField b0 = Opcode.loadb.number) :
    decodeWith order b0 b1 = .loadb (regOfNibble (rField b0)) b1 := by
  simp only [decodeWith, h, opcodeOf_number]

theorem decodeWith_of_storem (h : opField b0 = Opcode.storem.number) :
    decodeWith order b0 b1 = .storem (regOfNibble (rField b0)) b1 := by
  simp only [decodeWith, h, opcodeOf_number]

theorem decodeWith_of_move (h : opField b0 = Opcode.move.number) :
    decodeWith order b0 b1 = .move (regOfNibble (loField b1)) (regOfNibble (hiField b1)) := by
  simp only [decodeWith, h, opcodeOf_number]

theorem decodeWith_of_addi (h : opField b0 = Opcode.addi.number) :
    decodeWith order b0 b1 =
      .addi (regOfNibble (rField b0)) (regOfNibble (hiField b1)) (regOfNibble (loField b1)) := by
  simp only [decodeWith, h, opcodeOf_number]

theorem decodeWith_of_addf (h : opField b0 = Opcode.addf.number) :
    decodeWith order b0 b1 =
      .addf (regOfNibble (rField b0)) (regOfNibble (hiField b1)) (regOfNibble (loField b1)) := by
  simp only [decodeWith, h, opcodeOf_number]

theorem decodeWith_of_or (h : opField b0 = Opcode.or.number) :
    decodeWith order b0 b1 =
      .or (regOfNibble (rField b0)) (regOfNibble (hiField b1)) (regOfNibble (loField b1)) := by
  simp only [decodeWith, h, opcodeOf_number]

theorem decodeWith_of_and (h : opField b0 = Opcode.and.number) :
    decodeWith order b0 b1 =
      .and (regOfNibble (rField b0)) (regOfNibble (hiField b1)) (regOfNibble (loField b1)) := by
  simp only [decodeWith, h, opcodeOf_number]

theorem decodeWith_of_xor (h : opField b0 = Opcode.xor.number) :
    decodeWith order b0 b1 =
      .xor (regOfNibble (rField b0)) (regOfNibble (hiField b1)) (regOfNibble (loField b1)) := by
  simp only [decodeWith, h, opcodeOf_number]

theorem decodeWith_of_rot (h : opField b0 = Opcode.rot.number) :
    decodeWith order b0 b1 = .rot (regOfNibble (rField b0)) b1 := by
  simp only [decodeWith, h, opcodeOf_number]

theorem decodeWith_of_jmpeq (h : opField b0 = Opcode.jmpeq.number) :
    decodeWith order b0 b1 = .jmpeq (regOfNibble (rField b0)) b1 := by
  simp only [decodeWith, h, opcodeOf_number]

theorem decodeWith_of_halt (h : opField b0 = Opcode.halt.number) : decodeWith order b0 b1 = .halt := by
  simp only [decodeWith, h, opcodeOf_number]

theorem decodeWith_of_loadp (h : opField b0 = Opcode.loadp.number) :
    decodeWith order b0 b1 = .loadp (regOfNibble (dataField order b1)) (regOfNibble (ptrField order b1)) := by
  simp only [decodeWith, h, opcodeOf_number]

theorem decodeWith_of_storep (h : opField b0 = Opcode.storep.number) :
    decodeWith order b0 b1 = .storep (regOfNibble (dataField order b1)) (regOfNibble (ptrField order b1)) := by
  simp only [decodeWith, h, opcodeOf_number]

theorem decodeWith_of_jmplt (h : opField b0 = Opcode.jmplt.number) :
    decodeWith order b0 b1 = .jmplt (regOfNibble (rField b0)) b1 := by
  simp only [decodeWith, h, opcodeOf_number]

end DecoderEquations

/-! ## Decoding an encoded instruction -/

/-- The two nibbles of a pointer form hold the data and the pointer register, whichever order packs them (R56). -/
theorem fields_wordPtr (order : Config.PtrNibbleOrder) (o : Opcode) (data ptr : Reg) :
    opField (wordPtr order o data ptr).1 = o.number ∧
      dataField order (wordPtr order o data ptr).2 = nibbleOfReg data ∧
      ptrField order (wordPtr order o data ptr).2 = nibbleOfReg ptr := by
  cases order <;> simp [wordPtr, wordRR, dataField, ptrField]

theorem decodeWith_encodeWith (order : Config.PtrNibbleOrder) (i : Instr) :
    decodeWith order (encodeWith order i).1 (encodeWith order i).2 = i := by
  cases i with
  | nop => simp [encodeWith, wordZ, decodeWith_of_none]
  | halt => simp [encodeWith, wordZ, decodeWith_of_halt]
  | loadm reg addr => simp [encodeWith, wordRI, decodeWith_of_loadm]
  | loadb reg value => simp [encodeWith, wordRI, decodeWith_of_loadb]
  | storem reg addr => simp [encodeWith, wordRI, decodeWith_of_storem]
  | rot reg shift => simp [encodeWith, wordRI, decodeWith_of_rot]
  | jmpeq reg addr => simp [encodeWith, wordRI, decodeWith_of_jmpeq]
  | jmplt reg addr => simp [encodeWith, wordRI, decodeWith_of_jmplt]
  | addi dst a b => simp [encodeWith, wordRRR, decodeWith_of_addi]
  | addf dst a b => simp [encodeWith, wordRRR, decodeWith_of_addf]
  | or dst a b => simp [encodeWith, wordRRR, decodeWith_of_or]
  | and dst a b => simp [encodeWith, wordRRR, decodeWith_of_and]
  | xor dst a b => simp [encodeWith, wordRRR, decodeWith_of_xor]
  | move src dst => simp [encodeWith, wordRR, decodeWith_of_move]
  | loadp dst ptr =>
    obtain ⟨hop, hdata, hptr⟩ := fields_wordPtr order .loadp dst ptr
    simp [encodeWith, decodeWith_of_loadp, hop, hdata, hptr]
  | storep src ptr =>
    obtain ⟨hop, hdata, hptr⟩ := fields_wordPtr order .storep src ptr
    simp [encodeWith, decodeWith_of_storep, hop, hdata, hptr]

@[simp] theorem decode_encode (i : Instr) : decode (encode i).1 (encode i).2 = i :=
  decodeWith_encodeWith ptrNibbleOrder i

/-- Settles O42: each format's fields are read where they were packed. -/
theorem decodeOfEncodeIsTheInstruction : Obligations.DecodeOfEncodeIsTheInstruction :=
  decodeWith_encodeWith

/-! ## Encoding a decoded word -/

theorem packNibbles_hi_lo (b : Byte) : packNibbles (hiField b) (loField b) = b := packNibbles_fields b

/-- Packed back in the same order, the two fields of a pointer form give the byte they were read from (R56). -/
theorem wordPtr_of_fields (order : Config.PtrNibbleOrder) (o : Opcode) (b1 : Byte) :
    wordPtr order o (regOfNibble (dataField order b1)) (regOfNibble (ptrField order b1)) =
      (packNibbles o.number 0#4, b1) := by
  cases order <;> simp [wordPtr, wordRR, dataField, ptrField, packNibbles_hi_lo]

/-- Every first byte is the number of an opcode over a nibble (R51, R60). -/
theorem exists_eq_packNibbles_number (b : Byte) : ∃ (o : Opcode) (low : Nibble), b = packNibbles o.number low :=
  ⟨opcodeOf (opField b), rField b, by rw [number_opcodeOf, packNibbles_fields]⟩

theorem encode_canonical (i : Instr) : canonicalWord (encode i).1 (encode i).2 = true := by
  cases i <;> exact Laws.EncodeCanonical.canonicalWord_pack _ _ _

/-- A canonical word holds nothing but its opcode and the fields its instruction keeps. -/
theorem encode_decode_of_canonical (o : Opcode) (low : Nibble) (b1 : Byte)
    (h : canonicalWord (packNibbles o.number low) b1 = true) :
    encode (decode (packNibbles o.number low) b1) = (packNibbles o.number low, b1) := by
  have hop := opField_packNibbles o.number low
  rw [Laws.EncodeCanonical.canonicalWord_pack] at h
  rw [encode, decode]
  cases o with
  | none =>
    obtain ⟨rfl, rfl⟩ : low = 0#4 ∧ b1 = 0#8 := of_decide_eq_true h
    rw [decodeWith_of_none _ _ hop, encodeWith, wordZ]
  | halt =>
    obtain ⟨rfl, rfl⟩ : low = 0#4 ∧ b1 = 0#8 := of_decide_eq_true h
    rw [decodeWith_of_halt _ _ hop, encodeWith, wordZ]
  | move =>
    obtain rfl : low = 0#4 := of_decide_eq_true h
    simp [decodeWith_of_move, encodeWith, wordRR, packNibbles_hi_lo]
  | loadp =>
    obtain rfl : low = 0#4 := of_decide_eq_true h
    rw [decodeWith_of_loadp _ _ hop, encodeWith, wordPtr_of_fields]
  | storep =>
    obtain rfl : low = 0#4 := of_decide_eq_true h
    rw [decodeWith_of_storep _ _ hop, encodeWith, wordPtr_of_fields]
  | loadm => simp [decodeWith_of_loadm, encodeWith, wordRI]
  | loadb => simp [decodeWith_of_loadb, encodeWith, wordRI]
  | storem => simp [decodeWith_of_storem, encodeWith, wordRI]
  | rot => simp [decodeWith_of_rot, encodeWith, wordRI]
  | jmpeq => simp [decodeWith_of_jmpeq, encodeWith, wordRI]
  | jmplt => simp [decodeWith_of_jmplt, encodeWith, wordRI]
  | addi => simp [decodeWith_of_addi, encodeWith, wordRRR, packNibbles_hi_lo]
  | addf => simp [decodeWith_of_addf, encodeWith, wordRRR, packNibbles_hi_lo]
  | or => simp [decodeWith_of_or, encodeWith, wordRRR, packNibbles_hi_lo]
  | and => simp [decodeWith_of_and, encodeWith, wordRRR, packNibbles_hi_lo]
  | xor => simp [decodeWith_of_xor, encodeWith, wordRRR, packNibbles_hi_lo]

/-- Settles O43: what the encoder writes is canonical, and a canonical word loses nothing when it is decoded. -/
theorem encodeOfDecodeIsTheWordExactlyWhenCanonical :
    Obligations.EncodeOfDecodeIsTheWordExactlyWhenCanonical := by
  intro b0 b1
  constructor
  · intro h
    have hcanonical := encode_canonical (decode b0 b1)
    rwa [h] at hcanonical
  · obtain ⟨o, low, rfl⟩ := exists_eq_packNibbles_number b0
    exact encode_decode_of_canonical o low b1

/-! ## The opcode selects the instruction -/

theorem opcode_decode (b0 b1 : Byte) : (decode b0 b1).opcode = opcodeOf (opField b0) := by
  rw [decode, decodeWith]
  cases opcodeOf (opField b0) <;> rfl

theorem opcodeOf_eq_iff (n : Nibble) (o : Opcode) : opcodeOf n = o ↔ n = o.number := by
  constructor
  · rintro rfl
    exact (number_opcodeOf n).symm
  · rintro rfl
    exact opcodeOf_number o

/-- R53: the mask leaves the opcode field, in the place of a match value. -/
theorem instrWord_and_opcodeMask (b0 b1 : Byte) :
    instrWord b0 b1 &&& opcodeMask = (opField b0).setWidth 16 <<< 12 := by
  have hlow : b1.setWidth 16 &&& opcodeMask = 0#16 := by revert b1; decide
  have hhigh : (b0.setWidth 16 <<< 8) &&& opcodeMask = (opField b0).setWidth 16 <<< 12 := by revert b0; decide
  rw [instrWord, BitVec.and_or_distrib_right, hlow, hhigh, BitVec.or_zero]

/-- No two rows of the opcode table have the same match value (R53). -/
theorem matchValue_inj {m n : Nibble} : m.setWidth 16 <<< 12 = n.setWidth 16 <<< 12 ↔ m = n := by
  revert m n; decide

/-- Settles O44: the decoded opcode is the opcode field, and so is what the mask leaves of the word. -/
theorem opcodeAloneSelectsTheInstruction : Obligations.OpcodeAloneSelectsTheInstruction := by
  intro b0 b1 o
  rw [opcode_decode, opcodeOf_eq_iff, instrWord_and_opcodeMask, Opcode.tableMatch, matchValue_inj]

/-! ## MOVE (R55) -/

theorem regOfNibble_hiField_val (b : Byte) : (regOfNibble (hiField b)).val = b.toNat / 16 := by
  revert b; decide

theorem regOfNibble_loField_val (b : Byte) : (regOfNibble (loField b)).val = b.toNat % 16 := by
  revert b; decide

theorem packNibbles_nibbleOfReg (hi lo : Reg) :
    packNibbles (nibbleOfReg hi) (nibbleOfReg lo) = BitVec.ofNat 8 (hi.val * 16 + lo.val) := by
  revert hi lo; decide

theorem encode_move (src dst : Reg) :
    encode (.move src dst) = (0x40#8, BitVec.ofNat 8 (dst.val * 16 + src.val)) := by
  rw [← packNibbles_nibbleOfReg]
  rfl

theorem instrText_move (src dst : Reg) :
    Machine.Asm.instrText (.move src dst) =
      "move ".toList ++ Machine.Asm.registerText src ++ ", ".toList ++ Machine.Asm.registerText dst := by
  rfl

/-- Settles O45. -/
theorem moveHoldsItsDestinationInTheHighNibble : Obligations.MoveHoldsItsDestinationInTheHighNibble := by
  refine ⟨fun b0 b1 hop => ?_, fun src dst => ⟨encode_move src dst, instrText_move src dst⟩, encode_move 1 2⟩
  exact ⟨_, _, decodeWith_of_move _ b1 hop, regOfNibble_hiField_val b1, regOfNibble_loField_val b1⟩

/-! ## Ignored bits (R57, R61) -/

/-- R61: NONE and HALT read no field but the opcode; MOVE, LOADP and STOREP read the second byte only. -/
theorem decode_eq_of_ignored_fields {b0 b1 c0 c1 : Byte} (hop : opField b0 = opField c0)
    (h : opField b0 = 0#4 ∨ opField b0 = 12#4 ∨
      ((opField b0 = 4#4 ∨ opField b0 = 13#4 ∨ opField b0 = 14#4) ∧ b1 = c1)) :
    decode b0 b1 = decode c0 c1 := by
  rw [decode, decode]
  rcases h with h | h | ⟨h | h | h, rfl⟩
  · rw [decodeWith_of_none _ _ h, decodeWith_of_none _ _ (hop ▸ h)]
  · rw [decodeWith_of_halt _ _ h, decodeWith_of_halt _ _ (hop ▸ h)]
  · rw [decodeWith_of_move _ _ h, decodeWith_of_move _ _ (hop ▸ h)]
  · rw [decodeWith_of_loadp _ _ h, decodeWith_of_loadp _ _ (hop ▸ h)]
  · rw [decodeWith_of_storep _ _ h, decodeWith_of_storep _ _ (hop ▸ h)]

/-- Settles O47. -/
theorem wordsOfTheSpecDecodeAsListed : Obligations.WordsOfTheSpecDecodeAsListed :=
  ⟨rfl, rfl, rfl, rfl, rfl, rfl, rfl, rfl, rfl⟩

namespace Machine

theorem rotateCount_eq_mod (shift : Byte) : rotateCount shift = shift.toNat % 8 := by
  rw [rotateCount, BitVec.toNat_and]
  exact Nat.and_two_pow_sub_one_eq_mod shift.toNat 3

theorem exec_rot (reg : Reg) (shift : Byte) (s : State) :
    exec (.rot reg shift) s = .next (commitReg reg (ror8 (s.reg reg) (rotateCount shift)) s) := rfl

/-- Settles O46: the decoder reads no ignored field, and ROT reads its count modulo 8. -/
theorem ignoredBitsHaveNoEffect : Obligations.IgnoredBitsHaveNoEffect := by
  refine ⟨fun b0 b1 c0 c1 hop h => decode_eq_of_ignored_fields hop h, fun s reg m n hmod => ?_⟩
  rw [exec_rot, exec_rot, rotateCount_eq_mod, rotateCount_eq_mod, hmod]

/-! ## The step on an encoded instruction -/

/-- Settles O6: the fetch decodes the bytes of `encode i`. -/
theorem stepRunsTheEncodedInstruction : Obligations.StepRunsTheEncodedInstruction := by
  intro s i hpc hbyte0 hbyte1
  rw [step_of_canAdvance ((canAdvance_iff s).2 hpc), fetchInstr, hbyte0, hbyte1, decode_encode]

/-! ## Zero memory (R62, R190) -/

theorem exec_nop (s : State) : exec .nop s = .next (commitNothing s) := rfl

theorem fetchInstr_of_zero_memory {s : State} (hzero : ∀ a : Byte, s.load a = 0#8) : fetchInstr s = .nop := by
  rw [fetchInstr, hzero, hzero]
  rfl

theorem step_of_zero_memory {s : State} (hzero : ∀ a : Byte, s.load a = 0#8) (hpc : s.pc.toNat ≤ 253) :
    step s = .next (commitNothing (advance s)) := by
  rw [step_of_canAdvance ((canAdvance_iff s).2 hpc), fetchInstr_of_zero_memory hzero, exec_nop]

/-- The overflow test comes before the fetch (R134, D3). -/
theorem step_of_pc_high {s : State} (hpc : 253 < s.pc.toNat) : step s = .fault .pcOverflow := by
  refine step_of_overflow (Bool.eq_false_iff.2 fun h => ?_)
  have := (canAdvance_iff s).1 h
  omega

/-- A run begins with its first step. -/
theorem run_succ_of_next {s t : State} (h : step s = .next t) (k : Nat) : core.run (k + 1) s = core.run k t := by
  have h' : core.step s = .next t := h
  simp only [Host.Core.run, h']

/-- Settles O51, by induction on the number of steps. -/
theorem zeroMemoryRunsToTheEndAndFails : Obligations.ZeroMemoryRunsToTheEndAndFails := by
  intro k
  induction k with
  | zero =>
    intro s _ _
    exact ⟨s, rfl, rfl, rfl, fun _ => rfl, fun _ => rfl, step_of_pc_high⟩
  | succ k ih =>
    intro s hzero hpc
    have hle : s.pc.toNat ≤ 253 := by omega
    have hnext : (commitNothing (advance s)).pc.toNat = s.pc.toNat + 2 :=
      advance_pc_toNat s ((canAdvance_iff s).2 hle)
    obtain ⟨t, hrun, htpc, hjournal, hregs, hbytes, hend⟩ := ih (commitNothing (advance s)) hzero (by omega)
    refine ⟨t, ?_, by omega, ?_, hregs, hbytes, fun hhigh => hend (by omega)⟩
    · rw [run_succ_of_next (step_of_zero_memory hzero hle), hrun]
    · rw [hjournal, commitNothing_journal, advance_journal, List.replicate_succ', List.append_assoc]
      rfl

end Machine

end Sys2Proof
end

section
/-! PROOFS of the statements about the assembler (35_assembler.md): the printed form of an instruction assembles to its
encoding, and what assembles is a full image. -/

namespace Sys2Proof.Machine.Asm

/-! ## What is written below the cursor, and zeros (R71) -/

/-- The front of an image and the rest of it are resolved one after the other. -/
theorem resolveFrom_append {out : Output} {a m n : Nat} {front rest : List Byte}
    (hfront : resolveFrom out a m = .ok front) (hrest : resolveFrom out (a + m) n = .ok rest) :
    resolveFrom out a (m + n) = .ok (front ++ rest) := by
  induction m generalizing a front with
  | zero =>
    cases hfront
    rwa [Nat.zero_add]
  | succ m ih =>
    rw [resolveFrom] at hfront
    rw [Nat.succ_add, resolveFrom]
    cases hslot : resolveSlot out.labels (out.slots.lookup a) with
    | error e => simp [hslot] at hfront
    | ok b =>
      cases hmore : resolveFrom out (a + 1) m with
      | error e => simp [hslot, hmore] at hfront
      | ok more =>
        simp only [hslot, hmore, Except.ok.injEq] at hfront
        subst hfront
        rw [ih hmore (by rwa [Nat.succ_add_eq_add_succ])]
        rfl

theorem lookup_slots_of_all_below {slots : List (Nat × Slot)} {n k : Nat} (h : ∀ p ∈ slots, p.1 < n) (hk : n ≤ k) :
    slots.lookup k = none := by
  rw [List.lookup_eq_none_iff]
  intro p hp
  have := h p hp
  simp only [bne_iff_ne, ne_eq]
  omega

/-- A text whose lines write the first `n` slots only assembles to those slots' bytes and zeros. -/
theorem assemble_of_assembleLines {source : List Char} {out : Output} {n : Nat} {bytes : List Byte}
    (hlines : assembleLines 1 (splitLines source) Output.empty = .ok out) (hbelow : ∀ p ∈ out.slots, p.1 < n)
    (hbytes : resolveFrom out 0 n = .ok bytes) (hn : n ≤ 256) :
    assemble source = .ok (bytes ++ List.replicate (256 - n) 0#8) := by
  have hzeros : resolveFrom out (0 + n) (256 - n) = .ok (List.replicate (256 - n) 0#8) :=
    resolveFrom_unwritten out _ _ fun k hk => lookup_slots_of_all_below hbelow (by omega)
  have himage := resolveFrom_append hbytes hzeros
  rw [Nat.add_sub_cancel' hn] at himage
  rw [assemble, hlines]
  exact himage

/-! ## The printed form holds no character that cuts a line -/

/-- A text without a comment, a label definition or a second line. -/
def PlainText (cs : List Char) : Prop := ∀ c ∈ cs, c ≠ ';' ∧ c ≠ ':' ∧ c ≠ '\n'

theorem plainText_append {cs ds : List Char} (hc : PlainText cs) (hd : PlainText ds) : PlainText (cs ++ ds) := by
  intro c hmem
  rcases List.mem_append.1 hmem with h | h
  · exact hc c h
  · exact hd c h

theorem plainText_cons {c : Char} {cs : List Char} (hc : c ≠ ';' ∧ c ≠ ':' ∧ c ≠ '\n') (hcs : PlainText cs) :
    PlainText (c :: cs) :=
  List.forall_mem_cons.2 ⟨hc, hcs⟩

theorem plainText_nil : PlainText [] := List.forall_mem_nil _

theorem plainText_registerText (r : Reg) : PlainText (registerText r) :=
  plainText_cons (by decide) (plainText_cons (hexChar_plain r) plainText_nil)

theorem plainText_byteText (b : Byte) : PlainText (byteText b) :=
  plainText_cons (by decide) (plainText_cons (by decide)
    (plainText_cons (hexChar_plain _) (plainText_cons (hexChar_plain _) plainText_nil)))

theorem plainText_spelling (o : Opcode) : PlainText (spelling o) := by
  unfold PlainText
  cases o <;> simp [spelling]

theorem plainText_operandText {texts : List (List Char)} (h : ∀ t ∈ texts, PlainText t) :
    PlainText (operandText texts) := by
  cases texts with
  | nil => exact plainText_nil
  | cons t rest =>
    refine plainText_append (plainText_cons (by decide) (h t (by simp))) fun c hc => ?_
    obtain ⟨l, hl, hcl⟩ := List.mem_flatten.1 hc
    obtain ⟨u, hu, rfl⟩ := List.mem_map.1 hl
    have hplain : PlainText (',' :: ' ' :: u) :=
      plainText_cons (by decide) (plainText_cons (by decide) (h u (by simp [hu])))
    exact hplain c hcl

theorem plainText_operandTexts (i : Instr) : ∀ t ∈ operandTexts i, PlainText t := by
  cases i <;> simp [operandTexts, plainText_registerText, plainText_byteText]

theorem plainText_instrText (i : Instr) : PlainText (instrText i) :=
  plainText_append (plainText_spelling _) (plainText_operandText (plainText_operandTexts i))

/-! ## The mnemonic at the front of a line (R72, R76) -/

theorem mnemonicOf_spelling (o : Opcode) : mnemonicOf (spelling o) = some (.instr o) := by
  cases o <;> rfl

theorem isBlank_of_mem_spelling (o : Opcode) : ∀ c ∈ spelling o, isBlank c = false := by
  cases o <;> simp [spelling, isBlank]

theorem exists_spelling_eq_cons (o : Opcode) : ∃ c cs, spelling o = c :: cs := by
  cases o <;> exact ⟨_, _, rfl⟩

theorem skipBlanks_spelling_append (o : Opcode) (rest : List Char) :
    skipBlanks (spelling o ++ rest) = spelling o ++ rest := by
  have hblank := isBlank_of_mem_spelling o
  obtain ⟨c, cs, h⟩ := exists_spelling_eq_cons o
  rw [h] at hblank ⊢
  simp [skipBlanks, hblank c (by simp)]

/-- Printed operands begin with a space, so the word before them is the whole mnemonic. -/
theorem takeWhile_spelling_operandText (o : Opcode) (texts : List (List Char)) :
    (spelling o ++ operandText texts).takeWhile (fun c => !isBlank c) = spelling o := by
  rw [List.takeWhile_append_of_pos fun c hc => by simp [isBlank_of_mem_spelling o c hc]]
  cases texts <;> simp [operandText, isBlank]

theorem dropWhile_spelling_operandText (o : Opcode) (texts : List (List Char)) :
    (spelling o ++ operandText texts).dropWhile (fun c => !isBlank c) = operandText texts := by
  rw [List.dropWhile_append_of_pos fun c hc => by simp [isBlank_of_mem_spelling o c hc]]
  cases texts <;> simp [operandText, isBlank]

/-! ## A printed instruction, from its operands to the image -/

/-- R77: the emission rule of a mnemonic reads its printed operands to the end and emits the encoding. -/
theorem emit_operandText (line : Nat) (i : Instr) :
    emit line (.instr i.opcode) (operandText (operandTexts i)) = .ok (constSlots i, []) := by
  cases i with
  | nop | halt => rfl
  | loadm r b | loadb r b | storem r b | rot r b | jmpeq r b | jmplt r b => exact emitRI_printed line _ r b
  | move a b | loadp a b | storep a b => exact emitRR_printed _ a b
  | addi a b c | addf a b c | or a b c | and a b c | xor a b c => exact emitRRR_printed _ a b c

theorem statementPart_instrText (line : Nat) (i : Instr) (out : Output) :
    statementPart line (instrText i) out = writeSlots (constSlots i) out := by
  have hne : (spelling i.opcode ++ operandText (operandTexts i)).isEmpty = false := by
    obtain ⟨c, cs, h⟩ := exists_spelling_eq_cons i.opcode
    rw [h]
    rfl
  simp only [statementPart, instrText, skipBlanks_spelling_append, hne, takeWhile_spelling_operandText,
    mnemonicOf_spelling, dropWhile_spelling_operandText, emit_operandText]
  rfl

/-- A plain line without leading blanks is its own stripped text, and no label is defined on it. -/
theorem assembleLine_instrText (line : Nat) (i : Instr) (out : Output) :
    assembleLine line (instrText i) out = writeSlots (constSlots i) out := by
  have hplain := plainText_instrText i
  have hcomment : (instrText i).takeWhile (· != ';') = instrText i :=
    List.takeWhile_eq_self_iff.2 fun c hc => bne_iff_ne.2 (hplain c hc).1
  have hstrip : stripLine (instrText i) = instrText i := by
    rw [stripLine, hcomment]
    exact skipBlanks_spelling_append _ _
  have hlabel : (instrText i).dropWhile (· != ':') = [] :=
    List.dropWhile_eq_nil_iff.2 fun c hc => bne_iff_ne.2 (hplain c hc).2.1
  simp only [assembleLine, hstrip, hlabel, statementPart_instrText]

theorem splitLines_instrText (i : Instr) : splitLines (instrText i) = [instrText i] :=
  splitLines_one _ fun c hc => (plainText_instrText i c hc).2.2

/-- Settles O54: the one line of the text writes the two constant slots of the encoding. -/
theorem assembledTextOfAnInstructionIsItsEncoding : Obligations.AssembledTextOfAnInstructionIsItsEncoding := by
  intro i
  have hlines : assembleLines 1 (splitLines (instrText i)) Output.empty =
      .ok { slots := [(1, .const (encode i).2), (0, .const (encode i).1)], cursor := 2, labels := [] } := by
    rw [splitLines_instrText, assembleLines, assembleLine_instrText]
    rfl
  exact assemble_of_assembleLines (n := 2) hlines (by simp) rfl (by decide)

/-! ## What assembles is a full image -/

theorem exists_resolveFrom_of_assemble {source : List Char} {image : List Byte} (h : assemble source = .ok image) :
    ∃ out : Output, resolveFrom out 0 Config.memSize = .ok image := by
  unfold assemble at h
  split at h
  · cases h
  · next out _ => exact ⟨out, h⟩

theorem hostFill_response {image : List Byte} (h : image.length ≤ 256) (s : State) : (hostFill image s).2 = .done := by
  have hwf : wellFormedImage image = true := decide_eq_true h
  rw [hostFill, if_pos hwf]

/-- Settles O55: an image is resolved from all 256 slots. -/
theorem assembledImagesAreAcceptedByFill : Obligations.AssembledImagesAreAcceptedByFill := by
  intro source image s h
  obtain ⟨out, hout⟩ := exists_resolveFrom_of_assemble h
  have hlength : image.length = 256 := resolveFrom_length hout
  exact ⟨hlength, hostFill_response hlength.le s⟩

/-! ## The document's examples (R83) -/

/-- Settles O56: the four lines write eight slots; `halt` is the printed form of HALT. -/
theorem workedAssemblyExamples : Obligations.WorkedAssemblyExamples := by
  have hlines : assembleLines 1 (splitLines "loadb R0, 5\nloadb R1, 3\naddi R2, R0, R1\nhalt".toList) Output.empty =
      .ok { slots := [(7, .const 0x00#8), (6, .const 0xC0#8), (5, .const 0x01#8), (4, .const 0x52#8),
              (3, .const 0x03#8), (2, .const 0x21#8), (1, .const 0x05#8), (0, .const 0x20#8)],
            cursor := 8, labels := [] } := rfl
  exact ⟨assemble_of_assembleLines (n := 8) hlines (by decide) rfl (by decide),
    assembledTextOfAnInstructionIsItsEncoding .halt⟩

end Sys2Proof.Machine.Asm
end

section
/-! PROOFS of the statements about data transfer (40_data_transfer.md): each load and MOVE commits one register write,
each store one memory write, and a commit keeps everything but its cell. -/

namespace Sys2Proof.Machine

/-! ## What a commit of one write does: the write, the frame and the entry -/

/-- R137, whole. -/
theorem commitReg_effect (i : Reg) (v : Byte) (s : State) :
    (commitReg i v s).reg i = v ∧ OtherRegsKept i s (commitReg i v s) ∧ AllBytesKept s (commitReg i v s) ∧
      (commitReg i v s).pc = s.pc ∧ (commitReg i v s).journal = .registerSet i (s.reg i) :: s.journal :=
  ⟨reg_commitReg_self s i v, fun k hk => reg_commitReg_other s i k v hk, fun k => load_commitReg s i k v,
    commitReg_pc s i v, commitReg_journal s i v⟩

/-- R138, whole. -/
theorem commitMem_effect {s : State} (hwf : s.mem.wf = true) (a v : Byte) :
    (commitMem a v s).load a = v ∧ OtherBytesKept a s (commitMem a v s) ∧ AllRegsKept s (commitMem a v s) ∧
      (commitMem a v s).pc = s.pc ∧ (commitMem a v s).journal = .memorySet a (s.load a) :: s.journal :=
  ⟨load_store_same hwf a v, fun _ hk => load_store_other hwf hk v, fun k => reg_commitMem s k a v,
    commitMem_pc s a v, commitMem_journal s a v⟩

/-- A copied register keeps its value, also when it is copied onto itself. -/
theorem reg_commitReg_copied (src dst : Reg) (s : State) : (commitReg dst (s.reg src) s).reg src = s.reg src := by
  by_cases h : src = dst
  · subst h
    exact reg_commitReg_self s src (s.reg src)
  · exact reg_commitReg_other s dst src (s.reg src) h

/-! ## The operand forms (R106) -/

theorem immediateOperand_eq (imm : Byte) : immediateOperand imm = imm := rfl

theorem directAddress_eq (imm : Byte) : directAddress imm = imm := rfl

theorem pointerAddress_eq (s : State) (ptr : Reg) : pointerAddress s ptr = s.reg ptr := rfl

/-! ## The loads and MOVE commit one register write -/

theorem exec_loadb (reg : Reg) (value : Byte) (s : State) :
    exec (.loadb reg value) s = .next (commitReg reg (immediateOperand value) s) := rfl

theorem exec_loadm (reg : Reg) (addr : Byte) (s : State) :
    exec (.loadm reg addr) s = .next (commitReg reg (s.load (directAddress addr)) s) := rfl

theorem exec_loadp (dst ptr : Reg) (s : State) :
    exec (.loadp dst ptr) s = .next (commitReg dst (s.load (pointerAddress s ptr)) s) := rfl

theorem exec_move (src dst : Reg) (s : State) :
    exec (.move src dst) s = .next (commitReg dst (s.reg src) s) := rfl

/-- Settles O28: LOADB is the register write of its immediate. -/
theorem loadbLoadsTheImmediate : Obligations.LoadbLoadsTheImmediate := by
  intro s reg value
  rw [exec_loadb, immediateOperand_eq]
  exact ⟨_, rfl, commitReg_effect reg value s⟩

/-- Settles O29: LOADM is the register write of the byte at its direct address. -/
theorem loadmLoadsTheByteAtTheAddress : Obligations.LoadmLoadsTheByteAtTheAddress := by
  intro s reg addr
  rw [exec_loadm, directAddress_eq]
  exact ⟨_, rfl, commitReg_effect reg (s.load addr) s⟩

/-- Settles O30: LOADP reads pointer and byte before it writes, so `dst` may be `ptr`. -/
theorem loadpLoadsTheByteThePointerNames : Obligations.LoadpLoadsTheByteThePointerNames := by
  intro s dst ptr
  rw [exec_loadp, pointerAddress_eq]
  exact ⟨_, rfl, commitReg_effect dst (s.load (s.reg ptr)) s⟩

/-- Settles O31: MOVE is the register write of the source's value. -/
theorem moveCopiesTheSource : Obligations.MoveCopiesTheSource := by
  intro s src dst
  obtain ⟨hdst, hframe⟩ := commitReg_effect dst (s.reg src) s
  exact ⟨_, exec_move src dst s, hdst, reg_commitReg_copied src dst s, hframe⟩

/-! ## The stores commit one memory write -/

/-- Settles O32: STOREM is the memory write of its register at the direct address. -/
theorem storemStoresAtTheAddress : Obligations.StoremStoresAtTheAddress := by
  intro s reg addr hwf
  obtain ⟨hstored, hbytes, hframe⟩ := commitMem_effect hwf (directAddress addr) (s.reg reg)
  exact ⟨_, exec_storem reg addr s, hstored, hbytes, directAddress_eq addr, hframe⟩

/-- Settles O33: STOREP is the memory write of its data register at the pointer address. -/
theorem storepStoresWhereThePointerNames : Obligations.StorepStoresWhereThePointerNames := by
  intro s src ptr hwf
  obtain ⟨hstored, hbytes, hframe⟩ := commitMem_effect hwf (pointerAddress s ptr) (s.reg src)
  exact ⟨_, exec_storep src ptr s, hstored, hbytes, pointerAddress_eq s ptr, hframe⟩

end Sys2Proof.Machine
end

section
/-! PROOFS of the statements about arithmetic and logic (41_alu.md): each instruction but ADDF commits one register write
of a value computed from old registers; ADDF decodes and always fails. -/

namespace Sys2Proof.Machine

/-! ## What each instruction commits, or that it fails -/

theorem exec_addi (dst a b : Reg) (s : State) :
    exec (.addi dst a b) s = .next (commitReg dst (wrappingAdd (s.reg a) (s.reg b)) s) := rfl

theorem exec_addf (dst a b : Reg) (s : State) : exec (.addf dst a b) s = .fault .unimplemented := rfl

theorem exec_or (dst a b : Reg) (s : State) :
    exec (.or dst a b) s = .next (commitReg dst (s.reg a ||| s.reg b) s) := rfl

theorem exec_and (dst a b : Reg) (s : State) :
    exec (.and dst a b) s = .next (commitReg dst (s.reg a &&& s.reg b) s) := rfl

theorem exec_xor (dst a b : Reg) (s : State) :
    exec (.xor dst a b) s = .next (commitReg dst (s.reg a ^^^ s.reg b) s) := rfl

/-! ## OR, AND, XOR (R112 to R114) -/

/-- The three commit one register write whose bits are `f` of the old bits. -/
theorem exec_logic {s : State} {dst a b : Reg} {f : Bool → Bool → Bool} {i : Instr}
    (h : (i = .or dst a b ∧ f = or) ∨ (i = .and dst a b ∧ f = and) ∨ (i = .xor dst a b ∧ f = xor)) :
    ∃ v : Byte, exec i s = .next (commitReg dst v s) ∧
      ∀ k : Nat, v.getLsbD k = f ((s.reg a).getLsbD k) ((s.reg b).getLsbD k) := by
  rcases h with ⟨rfl, rfl⟩ | ⟨rfl, rfl⟩ | ⟨rfl, rfl⟩
  · exact ⟨_, exec_or dst a b s, fun k => BitVec.getLsbD_or⟩
  · exact ⟨_, exec_and dst a b s, fun k => BitVec.getLsbD_and⟩
  · exact ⟨_, exec_xor dst a b s, fun k => BitVec.getLsbD_xor⟩

/-- Settles O35: the bits of the committed value are read back from `dst`. -/
theorem logicInstructionsWorkBitByBit : Obligations.LogicInstructionsWorkBitByBit := by
  intro s dst a b f i hcase
  obtain ⟨v, hexec, hbits⟩ := exec_logic hcase
  obtain ⟨hdst, hframe⟩ := commitReg_effect dst v s
  exact ⟨_, hexec, fun k _ => hdst.symm ▸ hbits k, hframe⟩

/-! ## ROT (R115) -/

/-- R7: bits below `8 - n` come from the right shift, the others from the left shift, and the two never overlap. -/
theorem getLsbD_ror8 (v : Byte) {n k : Nat} (hn : n < 8) (hk : k < 8) :
    (ror8 v n).getLsbD k = v.getLsbD ((k + n) % 8) := by
  rw [ror8]
  split
  · next hzero => rw [hzero, Nat.add_zero, Nat.mod_eq_of_lt hk]
  · rw [BitVec.getLsbD_or, BitVec.getLsbD_ushiftRight, BitVec.getLsbD_shiftLeft]
    by_cases hlow : k + n < 8
    · have hleft : k < 8 - n := by omega
      rw [Nat.mod_eq_of_lt hlow]
      simp [hleft, Nat.add_comm]
    · have hright : v.getLsbD (n + k) = false := BitVec.getLsbD_of_ge v _ (by omega)
      have hleft : ¬ k < 8 - n := by omega
      have hbit : (k + n) % 8 = k - (8 - n) := by omega
      simp [hright, hleft, hk, hbit]

/-- Settles O36: ROT commits `ror8` of its register by the count modulo 8. -/
theorem rotRotatesTheRegisterRight : Obligations.RotRotatesTheRegisterRight := by
  intro s reg shift
  rw [exec_rot, rotateCount_eq_mod]
  have hcount : shift.toNat % 8 < 8 := Nat.mod_lt _ (by decide)
  obtain ⟨hreg, hframe⟩ := commitReg_effect reg (ror8 (s.reg reg) (shift.toNat % 8)) s
  exact ⟨_, rfl, fun k hk => hreg.symm ▸ getLsbD_ror8 (s.reg reg) hcount hk, hframe⟩

/-! ## ADDI and ADDF (R110, R111) -/

theorem toNat_wrappingAdd (a b : Byte) : (wrappingAdd a b).toNat = (a.toNat + b.toNat) % 256 := BitVec.toNat_add a b

/-- Settles O34: both sources are read before `dst` is written, so `dst` may be either. -/
theorem addiAddsModulo256 : Obligations.AddiAddsModulo256 := by
  intro s dst a b
  obtain ⟨hdst, hframe⟩ := commitReg_effect dst (wrappingAdd (s.reg a) (s.reg b)) s
  exact ⟨_, exec_addi dst a b s, hdst.symm ▸ toNat_wrappingAdd (s.reg a) (s.reg b), hframe⟩

/-- Settles O37: the error is execution's alone, for `decode` inverts `encode` on ADDF too. -/
theorem addfAlwaysFailsAsUnimplemented : Obligations.AddfAlwaysFailsAsUnimplemented :=
  fun s dst a b => ⟨exec_addf dst a b s, decode_encode (.addf dst a b)⟩

end Sys2Proof.Machine
end

section
/-! PROOFS of the statements about control (42_control.md): NONE and HALT commit nothing, and each conditional jump commits
a jump or nothing as its condition says. -/

namespace Sys2Proof.Machine

/-! ## What a commit of a jump or of nothing does: the frame, the counter and the entry -/

/-- R139, whole. -/
theorem commitJump_effect (target : Byte) (s : State) :
    AllRegsKept s (commitJump target s) ∧ AllBytesKept s (commitJump target s) ∧
      (commitJump target s).pc = target ∧ (commitJump target s).journal = .programCounterSet s.pc :: s.journal :=
  ⟨fun k => reg_commitJump s k target, fun k => load_commitJump s k target, commitJump_pc s target,
    commitJump_journal s target⟩

/-- R140, whole. -/
theorem commitNothing_effect (s : State) :
    AllRegsKept s (commitNothing s) ∧ AllBytesKept s (commitNothing s) ∧
      (commitNothing s).pc = s.pc ∧ (commitNothing s).journal = .nothing :: s.journal :=
  ⟨fun k => reg_commitNothing s k, fun k => load_commitNothing s k, commitNothing_pc s, commitNothing_journal s⟩

/-- R124, R134: any target may be jumped to, and the step from 254 or 255 then fails. -/
theorem step_commitJump_of_high {target : Byte} (h : 254 ≤ target.toNat) (s : State) :
    step (commitJump target s) = .fault .pcOverflow :=
  step_of_pc_high h

/-! ## NONE and HALT (R120, R123) -/

theorem exec_halt (s : State) : exec .halt s = .next (commitNothing s) := rfl

/-- Settles O38: NONE commits nothing, whatever its low bits. -/
theorem noneOnlyLogsNothing : Obligations.NoneOnlyLogsNothing :=
  ⟨rfl, fun _ b1 hop => decodeWith_of_none _ b1 hop, rfl, fun s => ⟨_, exec_nop s, commitNothing_effect s⟩⟩

/-- Settles O39: HALT differs from NONE in its word and its response alone. -/
theorem haltOnlyLogsNothingAndAnswersHalted : Obligations.HaltOnlyLogsNothingAndAnswersHalted :=
  ⟨rfl, fun _ b1 hop => decodeWith_of_halt _ b1 hop, rfl, fun s => ⟨_, exec_halt s, commitNothing_effect s⟩⟩

/-! ## The conditional jumps (R121, R122, R124) -/

/-- The state both conditional jumps commit, taken or not. -/
def conditionalJump (taken : Bool) (target : Byte) (s : State) : State :=
  if taken then commitJump target s else commitNothing s

theorem exec_jmpeq (reg : Reg) (addr : Byte) (s : State) :
    exec (.jmpeq reg addr) s = .next (conditionalJump (equalsRegister0 s reg) addr s) := rfl

theorem exec_jmplt (reg : Reg) (addr : Byte) (s : State) :
    exec (.jmplt reg addr) s = .next (conditionalJump (lessThanRegister0 s reg) addr s) := rfl

/-- R139 where the jump is taken, R140 where it is not; the frame is the same. -/
theorem conditionalJump_effect (taken : Bool) (target : Byte) (s : State) :
    AllRegsKept s (conditionalJump taken target s) ∧ AllBytesKept s (conditionalJump taken target s) ∧
      (taken = true → (conditionalJump taken target s).pc = target ∧
        (conditionalJump taken target s).journal = .programCounterSet s.pc :: s.journal ∧
        (254 ≤ target.toNat → step (conditionalJump taken target s) = .fault .pcOverflow)) ∧
      (¬ taken = true → (conditionalJump taken target s).pc = s.pc ∧
        (conditionalJump taken target s).journal = .nothing :: s.journal) := by
  cases taken with
  | true =>
    obtain ⟨hregs, hbytes, hpc, hentry⟩ := commitJump_effect target s
    exact ⟨hregs, hbytes, fun _ => ⟨hpc, hentry, fun h => step_commitJump_of_high h s⟩, fun h => absurd rfl h⟩
  | false =>
    obtain ⟨hregs, hbytes, hkept⟩ := commitNothing_effect s
    exact ⟨hregs, hbytes, fun h => (Bool.false_ne_true h).elim, fun _ => hkept⟩

/-- Format RI as a number: the opcode's number is the high nibble, the register the low one (R51). -/
theorem wordRI_eq_ofNat (o : Opcode) (r : Reg) (imm : Byte) :
    wordRI o r imm = (BitVec.ofNat 8 (o.number.toNat * 16 + r.val), imm) :=
  congrArg (·, imm) (packNibbles_nibbleOfReg (regOfNibble o.number) r)

/-- Settles O40: register 0 always equals itself, so JMPEQ R0 is taken. -/
theorem jmpeqJumpsExactlyWhenEqualToRegister0 : Obligations.JmpeqJumpsExactlyWhenEqualToRegister0 := by
  intro s reg addr
  obtain ⟨hregs, hbytes, htaken, hkept⟩ := conditionalJump_effect (equalsRegister0 s reg) addr s
  rw [equalsRegister0_iff] at htaken hkept
  refine ⟨wordRI_eq_ofNat .jmpeq reg addr, rfl, _, exec_jmpeq reg addr s, hregs, hbytes, htaken, hkept, ?_⟩
  rintro rfl
  exact (htaken rfl).1

/-- Settles O41: no register is below itself and none is below 0, so JMPLT is then not taken. -/
theorem jmpltJumpsExactlyWhenBelowRegister0 : Obligations.JmpltJumpsExactlyWhenBelowRegister0 := by
  intro s reg addr
  obtain ⟨hregs, hbytes, htaken, hkept⟩ := conditionalJump_effect (lessThanRegister0 s reg) addr s
  rw [lessThanRegister0_iff] at htaken hkept
  rw [Nat.not_lt] at hkept
  refine ⟨wordRI_eq_ofNat .jmplt reg addr, rfl, _, exec_jmplt reg addr s, hregs, hbytes, htaken, hkept, ?_⟩
  rintro (rfl | hzero)
  · exact (hkept le_rfl).1
  · have hle : (s.reg 0).toNat ≤ (s.reg reg).toNat := by simp [hzero]
    exact (hkept hle).1

end Sys2Proof.Machine
end

section
/-! PROOFS of the statements about the step and the journal (50_step_and_journal.md): a step is the checked advance and
one action committed; `UNDO` applies the action's entry again, so it inverts the step; and under the invariant it never
wraps. -/

namespace Sys2Proof.Machine

/-! ## Writing the old value back -/

theorem writeReg_writeReg_reg (s : State) (i : Reg) (v : Byte) : (s.writeReg i v).writeReg i (s.reg i) = s := by
  simp [State.writeReg, State.reg]

theorem store_store_load {s : State} (h : s.mem.wf = true) (a v : Byte) : (s.store a v).store a (s.load a) = s :=
  congrArg (fun m => { s with mem := m }) (write_back h a v)

theorem retreat_advance (s : State) : retreat (advance s) = s :=
  congrArg s.setPc (BitVec.add_sub_cancel s.pc 2#8)

theorem advance_retreat (s : State) : advance (retreat s) = s :=
  congrArg s.setPc (BitVec.sub_add_cancel s.pc 2#8)

/-! ## Committing an action (R132, R141) -/

/-- Apply an action that carries the new value, and push what it then carries. -/
def commitAction (a : Action) (s : State) : State := (applyAction a s).2.push (applyAction a s).1

theorem commitAction_journal (a : Action) (s : State) :
    (commitAction a s).journal = (applyAction a s).1 :: s.journal := by
  rw [commitAction, push_journal, applyAction_journal]

/-- Inversion of `exec`: it completes by committing the action the instruction intends. -/
theorem exec_eq_next_iff {i : Instr} {s t : State} :
    exec i s = .next t ↔ ∃ a : Action, intendedAction i s = some a ∧ t = commitAction a s := by
  rw [exec_eq_execBySwap, execBySwap]
  cases intendedAction i s with
  | none => simp [raiseError]
  | some a => simp [commitAction, eq_comm]

/-- Inversion of `step`: it completes by a checked advance and one action committed. -/
theorem step_next_commitAction {s t : State} (h : step s = .next t) :
    canAdvance s = true ∧
      ∃ a : Action, intendedAction (fetchInstr s) (advance s) = some a ∧ t = commitAction a (advance s) := by
  obtain ⟨hadvance, hexec, -⟩ := step_next_cases h
  exact ⟨hadvance, exec_eq_next_iff.1 hexec⟩

theorem step_pushes_entry {s t : State} (h : step s = .next t) : ∃ a : Action, t.journal = a :: s.journal := by
  obtain ⟨-, a, -, rfl⟩ := step_next_commitAction h
  exact ⟨_, commitAction_journal a (advance s)⟩

/-- R141: applying an action twice swaps the two values back. -/
theorem applyAction_applyAction {s : State} (hwf : s.mem.wf = true) (a : Action) :
    applyAction (applyAction a s).1 (applyAction a s).2 = (a, s) := by
  cases a with
  | nothing => rfl
  | registerSet i v => simp [applyAction, writeReg_writeReg_reg]
  | memorySet k v => simp [applyAction, load_store_same hwf, store_store_load hwf]
  | programCounterSet v => rfl

/-! ## UNDO by the newest entry (R143) -/

theorem restoreAction_eq_applyAction (a : Action) (s : State) : restoreAction a s = (applyAction a s).2 := by
  cases a <;> rfl

theorem undo_of_journal {s : State} {a : Action} {rest : List Action} (h : s.journal = a :: rest) :
    undo s = retreat (restoreAction a { s with journal := rest }) := by
  rw [undo, h]

theorem undo_of_journal_nil {s : State} (h : s.journal = []) : undo s = s := by
  rw [undo, h]

theorem undoBySwap_eq_undo (s : State) : undoBySwap s = undo s := by
  cases h : s.journal with
  | nil => rw [undo_of_journal_nil h, undoBySwap, h]
  | cons a rest => rw [undo_of_journal h, restoreAction_eq_applyAction, undoBySwap, h]

/-- `UNDO` takes a committed action back and then subtracts 2. -/
theorem undo_commitAction {s : State} (hwf : s.mem.wf = true) (a : Action) : undo (commitAction a s) = retreat s := by
  have hpopped : { commitAction a s with journal := s.journal } = (applyAction a s).2 := by
    cases a <;> rfl
  rw [undo_of_journal (commitAction_journal a s), hpopped, restoreAction_eq_applyAction, applyAction_applyAction hwf]

/-- R145 for one step: the subtraction of `UNDO` takes back the advance. -/
theorem undo_step {s t : State} (hwf : s.mem.wf = true) (h : step s = .next t) : undo t = s := by
  obtain ⟨-, a, -, rfl⟩ := step_next_commitAction h
  rw [undo_commitAction (s := advance s) hwf, retreat_advance]

/-! ## The invariant (R146) -/

/-- The program counter `UNDO` subtracts 2 from, when it pops the entry at program counter `pc`. -/
def counterToUndo (a : Action) (pc : Nat) : Nat :=
  match a with
  | .programCounterSet prev => prev.toNat
  | _ => pc

theorem undoInRange_cons (a : Action) (rest : List Action) (pc : Nat) :
    undoInRange (a :: rest) pc = true ↔
      2 ≤ counterToUndo a pc ∧ undoInRange rest (counterToUndo a pc - 2) = true := by
  cases a <;> simp [undoInRange, counterToUndo]

theorem counterToUndo_mono (a : Action) {pc pc' : Nat} (hle : pc ≤ pc') : counterToUndo a pc ≤ counterToUndo a pc' := by
  cases a with
  | programCounterSet prev => exact le_rfl
  | nothing | registerSet _ _ | memorySet _ _ => exact hle

/-- A history that can be undone from one program counter can be undone from any higher one. -/
theorem undoInRange_mono {entries : List Action} {pc pc' : Nat} (hle : pc ≤ pc')
    (h : undoInRange entries pc = true) : undoInRange entries pc' = true := by
  induction entries generalizing pc pc' with
  | nil => rfl
  | cons a rest ih =>
    rw [undoInRange_cons] at h ⊢
    have hcounter := counterToUndo_mono a hle
    exact ⟨h.1.trans hcounter, ih (Nat.sub_le_sub_right hcounter 2) h.2⟩

theorem inv_iff (s : State) : s.inv = true ↔ s.mem.wf = true ∧ undoInRange s.journal s.pc.toNat = true := by
  rw [State.inv, Bool.and_eq_true]

theorem inv_of_journal_nil {s : State} (hwf : s.mem.wf = true) (h : s.journal = []) : s.inv = true := by
  rw [inv_iff, h]
  exact ⟨hwf, rfl⟩

/-- D4: a program counter 2 higher leaves nothing to undo out of range. -/
theorem advance_keeps_inv {s : State} (hadvance : canAdvance s = true) (h : s.inv = true) : (advance s).inv = true := by
  obtain ⟨hwf, hrange⟩ := (inv_iff s).1 h
  have hpc := advance_pc_toNat s hadvance
  exact (inv_iff _).2 ⟨hwf, undoInRange_mono (by omega) hrange⟩

theorem applyAction_keeps_wf {s : State} (hwf : s.mem.wf = true) (a : Action) :
    (applyAction a s).2.mem.wf = true := by
  cases a with
  | memorySet k v => exact store_keeps_wf hwf k v
  | nothing | registerSet _ _ | programCounterSet _ => exact hwf

/-- The entry a commit pushes leads `UNDO` back to the program counter before the commit. -/
theorem counterToUndo_commitAction (a : Action) (s : State) :
    counterToUndo (applyAction a s).1 (commitAction a s).pc.toNat = s.pc.toNat := by
  cases a <;> rfl

theorem step_keeps_wf {s t : State} (hwf : s.mem.wf = true) (h : step s = .next t) : t.mem.wf = true := by
  obtain ⟨-, a, -, rfl⟩ := step_next_commitAction h
  exact applyAction_keeps_wf (s := advance s) hwf a

theorem step_keeps_inv {s t : State} (hinv : s.inv = true) (h : step s = .next t) : t.inv = true := by
  obtain ⟨hwf, hrange⟩ := (inv_iff s).1 hinv
  refine (inv_iff t).2 ⟨step_keeps_wf hwf h, ?_⟩
  obtain ⟨hadvance, a, -, rfl⟩ := step_next_commitAction h
  rw [commitAction_journal, undoInRange_cons, counterToUndo_commitAction, advance_pc_toNat s hadvance]
  exact ⟨Nat.le_add_left 2 _, hrange⟩

/-- Settles O16: the pushed entry is undone from the advanced counter, which is at least 2. -/
theorem stepKeepsTheInvariant : Obligations.StepKeepsTheInvariant :=
  fun _ _ => step_keeps_inv

/-! ## UNDO under the invariant -/

theorem toNat_sub_two_add_two {b : Byte} (h : 2 ≤ b.toNat) : (b - 2#8).toNat + 2 = b.toNat := by
  bv_omega

theorem restoreAction_pc (a : Action) (s : State) :
    (restoreAction a s).pc.toNat = counterToUndo a s.pc.toNat := by
  cases a <;> rfl

theorem undo_pc_add_two {s : State} {a : Action} {rest : List Action} (hinv : s.inv = true)
    (h : s.journal = a :: rest) : (undo s).pc.toNat + 2 = counterToUndo a s.pc.toNat := by
  obtain ⟨-, hrange⟩ := (inv_iff s).1 hinv
  rw [h, undoInRange_cons, ← restoreAction_pc a { s with journal := rest }] at hrange
  rw [undo_of_journal h, retreat_pc, toNat_sub_two_add_two hrange.1, restoreAction_pc]

theorem undo_keeps_wf {s : State} (hwf : s.mem.wf = true) : (undo s).mem.wf = true := by
  cases h : s.journal with
  | nil => rwa [undo_of_journal_nil h]
  | cons a rest =>
    rw [undo_of_journal h, restoreAction_eq_applyAction]
    exact applyAction_keeps_wf (s := { s with journal := rest }) hwf a

theorem undo_keeps_inv {s : State} (hinv : s.inv = true) : (undo s).inv = true := by
  obtain ⟨hwf, hrange⟩ := (inv_iff s).1 hinv
  cases h : s.journal with
  | nil => rwa [undo_of_journal_nil h]
  | cons a rest =>
    rw [h, undoInRange_cons, ← undo_pc_add_two hinv h, Nat.add_sub_cancel] at hrange
    rw [inv_iff, undo_journal, h]
    exact ⟨undo_keeps_wf hwf, hrange.2⟩

/-- Settles O18: the invariant's first entry says that 2 can be subtracted. -/
theorem undoNeverWrapsUnderTheInvariant : Obligations.UndoNeverWrapsUnderTheInvariant := by
  intro s a rest hinv h
  have hpc := undo_pc_add_two hinv h
  cases a <;> exact hpc

/-! ## The outcome and the response of a step -/

theorem opcode_fetchInstr (s : State) : (fetchInstr s).opcode = opcodeOf (opField (s.load s.pc)) :=
  opcode_decode _ _

theorem intendedAction_eq_none_iff (i : Instr) (s : State) : intendedAction i s = none ↔ i.opcode = .addf := by
  cases i <;> simp [intendedAction, Instr.opcode]

/-- The three outcomes of a step, each with the program counter and the opcode that lead to it (R160, R163). -/
inductive StepCase (s : State) : Prop
  | overflow (hpc : 253 < s.pc.toNat) (h : step s = .fault .pcOverflow)
  | unimplemented (hpc : s.pc.toNat ≤ 253) (hop : opField (s.load s.pc) = 6#4) (h : step s = .fault .unimplemented)
  | completed (t : State) (hpc : s.pc.toNat ≤ 253) (hop : opField (s.load s.pc) ≠ 6#4) (h : step s = .next t)

theorem stepCase (s : State) : StepCase s := by
  by_cases hpc : s.pc.toNat ≤ 253
  · have hstep := step_of_canAdvance ((canAdvance_iff s).2 hpc)
    have haddf : intendedAction (fetchInstr s) (advance s) = none ↔ opField (s.load s.pc) = 6#4 := by
      rw [intendedAction_eq_none_iff, opcode_fetchInstr, opcodeOf_eq_iff]
      rfl
    rw [exec_eq_execBySwap, execBySwap] at hstep
    cases ha : intendedAction (fetchInstr s) (advance s) with
    | none =>
      rw [ha] at hstep
      exact .unimplemented hpc (haddf.1 ha) hstep
    | some a =>
      rw [ha] at hstep
      exact .completed _ hpc (fun hop => by simp [haddf.2 hop] at ha) hstep
  · exact .overflow (by omega) (step_of_pc_high (by omega))

theorem responseOf_eq_ite (i : Instr) : responseOf i = if i.opcode = .halt then .halted else .continued := by
  cases i <;> rfl

theorem responseOf_fetchInstr (s : State) :
    responseOf (fetchInstr s) = if opField (s.load s.pc) = 12#4 then .halted else .continued := by
  have hop : (fetchInstr s).opcode = .halt ↔ opField (s.load s.pc) = 12#4 := by
    rw [opcode_fetchInstr, opcodeOf_eq_iff]
    rfl
  rw [responseOf_eq_ite]
  simp only [hop]

/-- Settles O10, by the outcome of the step. -/
theorem stepAnswersOneOfFourResponses : Obligations.StepAnswersOneOfFourResponses := by
  intro s
  rcases stepCase s with ⟨hpc, h⟩ | ⟨hpc, hop, h⟩ | ⟨t, hpc, hop, h⟩
  · have hhigh : ¬ s.pc.toNat ≤ 253 := by omega
    rw [hostStep_of_fault h]
    simp [h, hhigh]
  · rw [hostStep_of_fault h]
    simp [h, hop]
  · rw [hostStep_of_next h, responseOf_fetchInstr]
    by_cases hhalt : opField (s.load s.pc) = 12#4
    · simp [h, hpc, hhalt]
    · simp [h, hpc, hop, hhalt]

/-- Settles O11. -/
theorem oneJournalEntryPerSuccessfulStep : Obligations.OneJournalEntryPerSuccessfulStep := by
  intro s
  cases h : step s with
  | next t =>
    rw [hostStep_of_next h]
    exact ⟨fun _ => step_pushes_entry h, fun e he => absurd he (responseOf_ne_error _ e)⟩
  | fault e =>
    rw [hostStep_of_fault h]
    simp
  | refused r => exact absurd h (step_not_refused s r)

/-! ## Every command keeps the invariant -/

theorem hostStep_keeps_inv {s : State} (hinv : s.inv = true) : (hostStep s).1.inv = true := by
  rcases stepCase s with ⟨-, h⟩ | ⟨hpc, -, h⟩ | ⟨t, -, -, h⟩
  · rwa [hostStep_of_fault h]
  · rw [hostStep_of_fault h]
    exact advance_keeps_inv ((canAdvance_iff s).2 hpc) hinv
  · rw [hostStep_of_next h]
    exact step_keeps_inv hinv h

theorem hostReset_keeps_inv {s : State} (hinv : s.inv = true) : (hostReset s).inv = true :=
  inv_of_journal_nil ((inv_iff s).1 hinv).1 rfl

theorem hostFill_keeps_inv {s : State} (hinv : s.inv = true) (image : List Byte) :
    (hostFill image s).1.inv = true := by
  unfold hostFill
  split
  · next himage => exact inv_of_journal_nil (fromBytes_wf himage) rfl
  · exact hinv

/-- Settles O17, one command at a time. -/
theorem everyCommandKeepsTheInvariant : Obligations.EveryCommandKeepsTheInvariant := by
  intro c s hinv
  cases c with
  | fill image => exact hostFill_keeps_inv hinv image
  | step => exact hostStep_keeps_inv hinv
  | undo => exact undo_keeps_inv hinv
  | reset => exact hostReset_keeps_inv hinv

/-! ## The step cycle (R132 to R134) -/

/-- Settles O5: the two bytes are the ones the fetch decodes. -/
theorem stepRunsTheDecodedInstruction : Obligations.StepRunsTheDecodedInstruction := by
  intro s i hpc hdecode
  have hfetch : fetchInstr s = i := congrArg Prod.fst (Except.ok.inj hdecode)
  rw [step_of_canAdvance ((canAdvance_iff s).2 hpc), hfetch]
  rfl

/-- Settles O7. -/
theorem pcAdvanceIsCheckedAndOverflowChangesNothing : Obligations.PcAdvanceIsCheckedAndOverflowChangesNothing := by
  intro s
  constructor
  · intro hpc
    have hadvance := (canAdvance_iff s).2 (by omega)
    exact ⟨advance s, step_of_canAdvance hadvance, advance_pc_toNat s hadvance, rfl, rfl, rfl⟩
  · intro hpc
    have hfault : step s = .fault .pcOverflow := step_of_pc_high (by omega)
    exact ⟨hfault, hostStep_of_fault hfault⟩

/-! ## The commit primitives (R137 to R140) -/

/-- Settles O19. -/
theorem setRegWritesOneRegisterAndLogsItsPreviousValue :
    Obligations.SetRegWritesOneRegisterAndLogsItsPreviousValue :=
  fun s i v => ⟨_, rfl, commitReg_effect i v s⟩

/-- Settles O20. -/
theorem setMemWritesOneByteAndLogsItsPreviousValue : Obligations.SetMemWritesOneByteAndLogsItsPreviousValue :=
  fun s hwf => ⟨fun a v => ⟨_, rfl, commitMem_effect hwf a v⟩, fun reg addr => exec_storem reg addr s,
    fun src ptr => exec_storep src ptr s⟩

/-- The instruction is a conditional jump to `target` whose condition is true. -/
def JumpsTo (i : Instr) (s : State) (target : Byte) : Prop :=
  ∃ r : Reg, (i = .jmpeq r target ∧ s.reg r = s.reg 0) ∨
    (i = .jmplt r target ∧ (s.reg r).toNat < (s.reg 0).toNat)

/-- The instruction is NONE, HALT, or a conditional jump whose condition is false. -/
def ChangesNothing (i : Instr) (s : State) : Prop :=
  i = .nop ∨ i = .halt ∨ (∃ (r : Reg) (a : Byte), i = .jmpeq r a ∧ s.reg r ≠ s.reg 0) ∨
    (∃ (r : Reg) (a : Byte), i = .jmplt r a ∧ (s.reg 0).toNat ≤ (s.reg r).toNat)

theorem intendedAction_eq_programCounterSet_iff (i : Instr) (s : State) (target : Byte) :
    intendedAction i s = some (.programCounterSet target) ↔ JumpsTo i s target := by
  cases i with
  | jmpeq r a =>
    by_cases hcond : equalsRegister0 s r = true <;>
      simp [intendedAction, JumpsTo, hcond, ← equalsRegister0_iff]
  | jmplt r a =>
    by_cases hcond : lessThanRegister0 s r = true <;>
      simp [intendedAction, JumpsTo, hcond, ← lessThanRegister0_iff]
  | _ => simp [intendedAction, JumpsTo]

theorem intendedAction_eq_nothing_iff (i : Instr) (s : State) :
    intendedAction i s = some .nothing ↔ ChangesNothing i s := by
  cases i with
  | jmpeq r a =>
    by_cases hcond : equalsRegister0 s r = true <;>
      simp [intendedAction, ChangesNothing, hcond, ← equalsRegister0_iff]
  | jmplt r a =>
    by_cases hcond : lessThanRegister0 s r = true <;>
      simp [intendedAction, ChangesNothing, hcond, ← Nat.not_lt, ← lessThanRegister0_iff]
  | _ => simp [intendedAction, ChangesNothing]

theorem applyAction_entry_eq_nothing_iff (a : Action) (s : State) : (applyAction a s).1 = .nothing ↔ a = .nothing := by
  cases a <;> simp [applyAction]

theorem applyAction_entry_eq_programCounterSet {a : Action} {s : State} {prev : Byte}
    (h : (applyAction a s).1 = .programCounterSet prev) : prev = s.pc ∧ ∃ target, a = .programCounterSet target := by
  cases a with
  | programCounterSet target => exact ⟨(Action.programCounterSet.inj h).symm, target, rfl⟩
  | nothing | registerSet _ _ | memorySet _ _ => cases h

/-- Settles O21: the entry names the action the fetched instruction intends, and that action names the instruction. -/
theorem jumpAndNothingEntriesOfAStep : Obligations.JumpAndNothingEntriesOfAStep := by
  refine ⟨fun _ _ => rfl, fun _ => rfl, fun s t hstep => ?_⟩
  obtain ⟨hadvance, a, ha, rfl⟩ := step_next_commitAction hstep
  have hjump := intendedAction_eq_programCounterSet_iff (fetchInstr s) (advance s)
  have hnothing := intendedAction_eq_nothing_iff (fetchInstr s) (advance s)
  have hentry : (commitAction a (advance s)).journal = .nothing :: s.journal ↔ a = .nothing := by
    rw [commitAction_journal, advance_journal, ← applyAction_entry_eq_nothing_iff a (advance s)]
    simp
  rw [ha] at hjump hnothing
  refine ⟨fun r target htaken => ?_, ?_, fun h => ?_, fun prev h => ?_⟩
  · obtain rfl := Option.some.inj ((hjump target).2 ⟨r, htaken⟩)
    rfl
  · exact (hnothing.symm.trans Option.some_inj).trans hentry.symm
  · obtain rfl := hentry.1 h
    rfl
  · rw [commitAction_journal] at h
    obtain ⟨rfl, target, rfl⟩ := applyAction_entry_eq_programCounterSet (List.cons.inj h).1
    exact ⟨advance_pc_toNat s hadvance, rfl, rfl, (hjump target).1 rfl⟩

/-! ## UNDO (R143 to R145) -/

/-- Settles O22. -/
theorem undoRestoresTheEntrysCellThenSubtractsTwo : Obligations.UndoRestoresTheEntrysCellThenSubtractsTwo := by
  intro s rest
  refine ⟨fun h => ?_, fun i prev h => ?_, fun a prev hwf h => ?_, fun prev h => ?_⟩
  · exact undo_of_journal h
  · rw [undo_of_journal h]
    exact ⟨reg_writeReg_self _ i prev, fun k hk => reg_writeReg_other { s with journal := rest } i k prev hk,
      fun _ => rfl, rfl, rfl⟩
  · rw [undo_of_journal h]
    exact ⟨load_store_same (s := { s with journal := rest }) hwf a prev,
      fun k hk => load_store_other (s := { s with journal := rest }) hwf hk prev, fun _ => rfl, rfl, rfl⟩
  · exact undo_of_journal h

/-- Settles O23. -/
theorem undoOnAnEmptyJournalChangesNothing : Obligations.UndoOnAnEmptyJournalChangesNothing :=
  fun _ h => congrArg (·, Response.done) (undo_of_journal_nil h)

/-- Settles O24. -/
theorem stepThenUndoIsTheIdentity : Obligations.StepThenUndoIsTheIdentity :=
  fun _ _ => undo_step

/-- A run of `k + 1` steps is a step and a run of `k`. -/
theorem run_succ_next_cases {k : Nat} {s t : State} (h : core.run (k + 1) s = .next t) :
    ∃ u : State, step s = .next u ∧ core.run k u = .next t := by
  cases hs : step s with
  | next u => exact ⟨u, rfl, (run_succ_of_next hs k).symm.trans h⟩
  | fault e =>
    have hs' : core.step s = .fault e := hs
    simp [Host.Core.run, hs'] at h
  | refused r => exact absurd hs (step_not_refused s r)

/-- The last of `n + 1` undos may be set apart as well as the first. -/
theorem undoTimes_succ (n : Nat) (s : State) : undoTimes (n + 1) s = undo (undoTimes n s) := by
  induction n generalizing s with
  | zero => rfl
  | succ n ih => exact ih (undo s)

/-- Settles O25, by induction on the number of steps: the first step is undone last. -/
theorem stepsThenAsManyUndosRestoreTheState : Obligations.StepsThenAsManyUndosRestoreTheState := by
  intro n
  induction n with
  | zero =>
    intro s t _ hrun
    exact (Host.Outcome.next.inj hrun).symm
  | succ n ih =>
    intro s t hwf hrun
    obtain ⟨u, hstep, hrest⟩ := run_succ_next_cases hrun
    rw [undoTimes_succ, ih u t (step_keeps_wf hwf hstep) hrest, undo_step hwf hstep]

/-! ## UNDO after a failed step (R147) -/

/-- Undoing a jump forgets the present program counter, so an advance before it is lost. -/
theorem undo_advance_of_programCounterSet {t : State} {prev : Byte} {rest : List Action}
    (h : t.journal = .programCounterSet prev :: rest) : undo (advance t) = undo t := by
  have h' : (advance t).journal = .programCounterSet prev :: rest := h
  rw [undo_of_journal h', undo_of_journal h]
  rfl

/-- Every other entry leaves the program counter as it stands. -/
theorem restoreAction_advance {a : Action} (ha : ∀ prev : Byte, a ≠ .programCounterSet prev) (s : State) :
    restoreAction a (advance s) = advance (restoreAction a s) := by
  cases a with
  | programCounterSet prev => exact absurd rfl (ha prev)
  | nothing | registerSet _ _ | memorySet _ _ => rfl

/-- So an advance before `UNDO` is still there after it. -/
theorem undo_advance_of_ne_programCounterSet {t : State} {a : Action} {rest : List Action}
    (ha : ∀ prev : Byte, a ≠ .programCounterSet prev) (h : t.journal = a :: rest) :
    undo (advance t) = advance (undo t) := by
  have h' : (advance t).journal = a :: rest := h
  have hrestore := restoreAction_advance ha { t with journal := rest }
  rw [undo_of_journal h', undo_of_journal h, advance_retreat]
  exact (congrArg retreat hrestore).trans (retreat_advance _)

theorem hostStep_error {s u : State} {e : Fault} (h : hostStep s = (u, .error e)) : u = takeError e s := by
  cases hs : step s with
  | next t =>
    rw [hostStep_of_next hs] at h
    exact absurd (Prod.ext_iff.1 h).2 (responseOf_ne_error _ e)
  | fault e' =>
    rw [hostStep_of_fault hs] at h
    cases h
    rfl
  | refused r => exact absurd hs (step_not_refused s r)

/-- Settles O26: the failed step pushed nothing, so `UNDO` meets the entry of the successful one, at the program counter
`takeError` leaves. -/
theorem undoAfterAFailedStep : Obligations.UndoAfterAFailedStep := by
  intro s t u a hwf hstep hentry
  have hundo := undo_step hwf hstep
  refine ⟨fun hfail => ?_, fun hfail => ⟨fun prev ha => ?_, fun ha => ?_⟩⟩
  · rw [hostStep_error hfail, takeError_pcOverflow, hundo]
  · subst ha
    rw [hostStep_error hfail, takeError_unimplemented, undo_advance_of_programCounterSet hentry, hundo]
  · rw [hostStep_error hfail, takeError_unimplemented, undo_advance_of_ne_programCounterSet ha hentry, hundo]
    rfl

/-! ## The swap form (R141) -/

/-- Settles O27. -/
theorem swapFormOfTheLoggerIsTheSameMachine : Obligations.SwapFormOfTheLoggerIsTheSameMachine :=
  ⟨fun i s => (exec_eq_execBySwap i s).symm, undoBySwap_eq_undo, fun a _ hwf => applyAction_applyAction hwf a⟩

/-! ## The queries (R148, R149) -/

theorem disassemble_of_lt {a : Byte} (h : a.toNat < 255) (s : State) :
    disassemble s a = .ok (decode (s.load a) (s.load (a + 1#8))) := by
  have ha : a ≠ 255#8 := by
    rintro rfl
    exact absurd h (by decide)
  rw [disassemble, if_neg ha]

/-- Settles O48: at `pc` the query decodes the bytes the fetch decodes. -/
theorem disassembleShowsTheInstructionTheStepRuns : Obligations.DisassembleShowsTheInstructionTheStepRuns := by
  refine fun s => ⟨fun a ha => ⟨a + 1#8, by bv_omega, disassemble_of_lt (by omega) s⟩, rfl, fun i hpc h => ?_⟩
  rw [disassemble_of_lt (by omega)] at h
  obtain rfl := Except.ok.inj h
  exact step_of_canAdvance ((canAdvance_iff s).2 hpc)

theorem highlight_of_registerSet {s : State} {i : Reg} {prev : Byte} {rest : List Action}
    (h : s.journal = .registerSet i prev :: rest) : highlight s = .register i := by
  rw [highlight, h]

theorem highlight_of_memorySet {s : State} {a prev : Byte} {rest : List Action}
    (h : s.journal = .memorySet a prev :: rest) : highlight s = .memory a := by
  rw [highlight, h]

/-- Settles O49: the entry a step pushes is the journal's newest. -/
theorem journalQueryEndsWithTheNewestEntry : Obligations.JournalQueryEndsWithTheNewestEntry := by
  intro s t hstep
  obtain ⟨a, hentry⟩ := step_pushes_entry hstep
  refine ⟨a, ?_, fun i prev ha => ?_, fun k prev ha => ?_⟩
  · rw [queryJournal, queryJournal, hentry, List.reverse_cons]
  · exact highlight_of_registerSet (ha ▸ hentry)
  · exact highlight_of_memorySet (ha ▸ hentry)

end Sys2Proof.Machine
end

section
/-! PROOFS of the statements about exceptions (60_exceptions.md): the two errors a step can end in, what `Unimplemented`
leaves, and where the host's run ends. -/

namespace Sys2Proof.Machine

/-! ## The two errors (R160 to R163) -/

/-- Settles O8: of the three outcomes of a step two are errors, and the program counter and the opcode tell which. -/
theorem theTwoErrorsAndTheirPriority : Obligations.TheTwoErrorsAndTheirPriority := by
  intro s e
  rcases stepCase s with ⟨hpc, h⟩ | ⟨hpc, hop, h⟩ | ⟨t, hpc, hop, h⟩
  · have hlow : ¬ s.pc.toNat ≤ 253 := by omega
    have hhigh : 254 ≤ s.pc.toNat := hpc
    simp [h, hlow, hhigh, eq_comm]
  · have hhigh : ¬ 254 ≤ s.pc.toNat := by omega
    simp [h, hpc, hop, hhigh, eq_comm]
  · have hhigh : ¬ 254 ≤ s.pc.toNat := by omega
    simp [h, hop, hhigh]

/-- Settles O9: the step faults as O8 says, and `takeError` keeps the advance alone (D4). -/
theorem unimplementedErrorLeavesOnlyThePcAdvanced : Obligations.UnimplementedErrorLeavesOnlyThePcAdvanced := by
  intro s hpc hop
  have hfault : step s = .fault .unimplemented :=
    (theTwoErrorsAndTheirPriority s .unimplemented).2 (.inr ⟨rfl, hpc, hop⟩)
  exact hostStep_of_fault hfault

/-! ## One `STEP` of a run: it continues or it ends the run (R131, R186) -/

/-- `STEP` from `s` ends the run: with `Halted`, or with an error (D17). -/
inductive StepEnds (s : State) : RunEnd → Prop
  | halted {t : State} (h : hostStep s = (t, .halted)) : StepEnds s (.halted t)
  | failed {e : Fault} (h : (hostStep s).2 = .error e) : StepEnds s (.failed e)

theorem stepEnds_halted_iff {s t : State} : StepEnds s (.halted t) ↔ hostStep s = (t, .halted) :=
  ⟨fun h => by cases h; assumption, .halted⟩

theorem stepEnds_failed_iff {s : State} {e : Fault} : StepEnds s (.failed e) ↔ (hostStep s).2 = .error e :=
  ⟨fun h => by cases h; assumption, .failed⟩

theorem not_stepEnds_running (s t : State) : ¬ StepEnds s (.running t) := by
  rintro ⟨⟩

theorem stepContinues_or_stepEnds (s : State) :
    (∃ t : State, hostStep s = (t, .continued)) ∨ ∃ r : RunEnd, StepEnds s r := by
  cases h : step s with
  | next t =>
    have hstep := hostStep_of_next h
    rw [responseOf_eq_ite] at hstep
    split at hstep
    · exact .inr ⟨_, .halted hstep⟩
    · exact .inl ⟨t, hstep⟩
  | fault e => exact .inr ⟨_, .failed (congrArg Prod.snd (hostStep_of_fault h))⟩
  | refused r => exact absurd h (step_not_refused s r)

theorem not_stepEnds_of_continued {s t : State} {r : RunEnd} (h : hostStep s = (t, .continued)) : ¬ StepEnds s r := by
  rintro (h' | h') <;> simp [h] at h'

theorem step_of_hostStep_continued {s t : State} (h : hostStep s = (t, .continued)) : step s = .next t := by
  cases hs : step s with
  | next u =>
    rw [hostStep_of_next hs] at h
    exact congrArg _ (Prod.ext_iff.1 h).1
  | fault e =>
    rw [hostStep_of_fault hs] at h
    cases h
  | refused r => exact absurd hs (step_not_refused s r)

theorem hostRun_succ_of_continued {s t : State} (h : hostStep s = (t, .continued)) (n : Nat) :
    hostRun (n + 1) s = hostRun n t := by
  rw [hostRun, h]

theorem hostRun_succ_of_stepEnds {s : State} {r : RunEnd} (h : StepEnds s r) (n : Nat) : hostRun (n + 1) s = r := by
  cases h with
  | halted h => rw [hostRun, h]
  | @failed e h =>
    have hstep : hostStep s = ((hostStep s).1, .error e) := Prod.ext rfl h
    rw [hostRun, hstep]

/-- What the first `STEP` of a run decides. -/
theorem hostRun_succ_eq_iff {n : Nat} {s : State} {r : RunEnd} :
    hostRun (n + 1) s = r ↔ StepEnds s r ∨ ∃ t : State, hostStep s = (t, .continued) ∧ hostRun n t = r := by
  rcases stepContinues_or_stepEnds s with ⟨t, h⟩ | ⟨r', h⟩
  · rw [hostRun_succ_of_continued h]
    simp [h, not_stepEnds_of_continued h]
  · have hends : StepEnds s r ↔ r' = r :=
      ⟨fun h' => (hostRun_succ_of_stepEnds h 0).symm.trans (hostRun_succ_of_stepEnds h' 0), fun e => e ▸ h⟩
    have hstops (t : State) : hostStep s ≠ (t, .continued) := fun hc => not_stepEnds_of_continued hc h
    rw [hostRun_succ_of_stepEnds h]
    simp [hends, hstops]

/-! ## The steps before the end of a run -/

/-- `k` `STEP`s from `s`, each answered `Continue`, lead to `u`. -/
def ContinuesTo : Nat → State → State → Prop
  | 0, s, u => s = u
  | k + 1, s, u => ∃ t : State, hostStep s = (t, .continued) ∧ ContinuesTo k t u

/-- The same, said of the machine's own run. -/
theorem continuesTo_iff {k : Nat} {s u : State} :
    ContinuesTo k s u ↔ core.run k s = .next u ∧
      ∀ (j : Nat) (v : State), j < k → core.run j s = .next v → (hostStep v).2 = .continued := by
  induction k generalizing s with
  | zero =>
    refine ⟨?_, fun ⟨hrun, _⟩ => Host.Outcome.next.inj hrun⟩
    rintro rfl
    exact ⟨rfl, fun j v hj => absurd hj (Nat.not_lt_zero j)⟩
  | succ k ih =>
    constructor
    · rintro ⟨t, hfirst, hrest⟩
      obtain ⟨hrun, hbefore⟩ := ih.1 hrest
      have hstep := step_of_hostStep_continued hfirst
      refine ⟨(run_succ_of_next hstep k).trans hrun, fun j v hj hv => ?_⟩
      cases j with
      | zero =>
        cases hv
        rw [hfirst]
      | succ j => exact hbefore j v (by omega) ((run_succ_of_next hstep j).symm.trans hv)
    · rintro ⟨hrun, hbefore⟩
      obtain ⟨t, hstep, hrest⟩ := run_succ_next_cases hrun
      have hfirst : hostStep s = (t, .continued) := by
        have hresponse := hbefore 0 s (by omega) rfl
        rw [hostStep_of_next hstep] at hresponse ⊢
        exact Prod.ext rfl hresponse
      refine ⟨t, hfirst, ih.2 ⟨hrest, fun j v hj hv => ?_⟩⟩
      exact hbefore (j + 1) v (by omega) ((run_succ_of_next hstep j).trans hv)

/-- R186: a run stands as `r` exactly when a `STEP` ended it so after `Continue`s alone, or all its `STEP`s are
`Continue`s. By induction on the number of steps. -/
theorem hostRun_eq_iff {n : Nat} {s : State} {r : RunEnd} :
    hostRun n s = r ↔ (∃ (k : Nat) (u : State), k < n ∧ ContinuesTo k s u ∧ StepEnds u r) ∨
      ∃ u : State, ContinuesTo n s u ∧ .running u = r := by
  induction n generalizing s with
  | zero => simp [hostRun, ContinuesTo]
  | succ n ih =>
    rw [hostRun_succ_eq_iff]
    constructor
    · rintro (hends | ⟨t, hfirst, hrest⟩)
      · exact .inl ⟨0, s, by omega, rfl, hends⟩
      · rcases ih.1 hrest with ⟨k, u, hk, hu, hends⟩ | ⟨u, hu, hr⟩
        · exact .inl ⟨k + 1, u, by omega, ⟨t, hfirst, hu⟩, hends⟩
        · exact .inr ⟨u, ⟨t, hfirst, hu⟩, hr⟩
    · rintro (⟨_ | k, u, hk, hu, hends⟩ | ⟨u, ⟨t, hfirst, hu⟩, hr⟩)
      · cases hu
        exact .inl hends
      · obtain ⟨t, hfirst, hu⟩ := hu
        exact .inr ⟨t, hfirst, ih.2 (.inl ⟨k, u, by omega, hu, hends⟩)⟩
      · exact .inr ⟨t, hfirst, ih.2 (.inr ⟨u, hu, hr⟩)⟩

/-- Settles O53. -/
theorem runEndsAtTheFirstHaltedOrError : Obligations.RunEndsAtTheFirstHaltedOrError := by
  intro n s
  refine ⟨fun t => ?_, fun e => ?_, fun t => ?_⟩
  · simp [hostRun_eq_iff, stepEnds_halted_iff, continuesTo_iff, and_comm, and_left_comm]
  · simp [hostRun_eq_iff, stepEnds_failed_iff, continuesTo_iff, and_comm, and_left_comm]
  · simp [hostRun_eq_iff, not_stepEnds_running, continuesTo_iff]

end Sys2Proof.Machine
end

section
/-! PROOFS of the statements about reset and hazards (70_reset_and_hazards.md): what `RESET` and `FILL` leave, where
execution starts after them, and the jump to itself, which never ends. -/

namespace Sys2Proof.Machine

/-! ## FILL, by the length of the image (R182) -/

theorem hostFill_of_le {image : List Byte} (h : image.length ≤ 256) (s : State) :
    hostFill image s = ({ State.reset with mem := Memory.fromBytes 0 image }, .done) :=
  if_pos (decide_eq_true h)

theorem hostFill_of_gt {image : List Byte} (h : 256 < image.length) (s : State) :
    hostFill image s = (s, .refused .imageTooLong) :=
  if_neg fun hwf => Nat.not_le_of_gt h (of_decide_eq_true hwf)

/-- Memory laid out from address 0 reads as the image padded with zeros. -/
theorem read_fromBytes {image : List Byte} (h : image.length ≤ 256) (a : Byte) :
    (Memory.fromBytes 0 image).read a = image.getD a.toNat 0#8 :=
  lookup_fromBytes 0 image (by omega) a.toNat (Nat.zero_le _)

/-- Settles O3. -/
theorem fillLoadsThePaddedImageAndResetsTheRest : Obligations.FillLoadsThePaddedImageAndResetsTheRest :=
  fun _ s => ⟨fun hle => ⟨_, hostFill_of_le hle s, read_fromBytes hle, reg_reset, rfl, rfl⟩,
    fun hgt => hostFill_of_gt hgt s⟩

/-! ## RESET (R181) -/

@[simp] theorem reg_hostReset (s : State) (i : Reg) : (hostReset s).reg i = 0#8 := reg_reset i

/-- Settles O2. -/
theorem resetCommandClearsAllButMemory : Obligations.ResetCommandClearsAllButMemory :=
  fun s => ⟨hostReset s, rfl, reg_hostReset s, hostReset_pc s, hostReset_journal s, fun _ => rfl⟩

/-! ## Where execution starts (R183) -/

theorem step_of_pc_zero {t : State} (h : t.pc = 0#8) :
    step t = exec (decode (t.load 0#8) (t.load 1#8)) { t with pc := 2#8 } := by
  have hstep := stepRunsTheDecodedInstruction t _ (by simp [h]) rfl
  rwa [h] at hstep

/-- Settles O4: each of the three states has `pc` 0. -/
theorem executionStartsAtAddressZero : Obligations.ExecutionStartsAtAddressZero := by
  intro s t image hlen hstart
  have hpc : t.pc = 0#8 := by
    rcases hstart with rfl | rfl | rfl
    · rfl
    · exact hostReset_pc s
    · rw [perform, hostFill_of_le hlen]
      rfl
  exact ⟨hpc, step_of_pc_zero hpc⟩

/-! ## The jump to itself (R193) -/

/-- The instruction at `pc` is JMPEQ R0 to `pc`, and it can be fetched. -/
def JumpsToItself (s : State) : Prop := s.pc.toNat ≤ 253 ∧ s.load s.pc = 0xB0#8 ∧ s.load (s.pc + 1#8) = s.pc

/-- Register 0 equals itself, so the jump is taken and only its entry is new. -/
theorem hostStep_of_jumpsToItself {s : State} (h : JumpsToItself s) :
    hostStep s = (s.push (.programCounterSet (s.pc + 2#8)), .continued) := by
  obtain ⟨hpc, hbyte0, hbyte1⟩ := h
  have hfetched : step s = exec (.jmpeq 0 s.pc) (advance s) :=
    stepRunsTheEncodedInstruction s (.jmpeq 0 s.pc) hpc hbyte0 hbyte1
  have htaken : equalsRegister0 (advance s) 0 = true := (equalsRegister0_iff _ _).2 rfl
  have hstep : step s = .next (s.push (.programCounterSet (s.pc + 2#8))) := by
    rw [hfetched, exec_jmpeq, htaken]
    rfl
  rw [hostStep_of_next hstep, responseOf_fetchInstr, hbyte0]
  rfl

/-- By induction on the number of steps: the pushed entry leaves the jump in place. -/
theorem continuesTo_of_jumpsToItself (n : Nat) {s : State} (h : JumpsToItself s) :
    ContinuesTo n s { s with journal := List.replicate n (.programCounterSet (s.pc + 2#8)) ++ s.journal } := by
  induction n generalizing s with
  | zero => rfl
  | succ n ih =>
    refine ⟨_, hostStep_of_jumpsToItself h, ?_⟩
    rw [List.replicate_succ', List.append_assoc]
    exact ih (s := s.push (.programCounterSet (s.pc + 2#8))) h

/-- Settles O52. -/
theorem jumpToItselfNeverEnds : Obligations.JumpToItselfNeverEnds := by
  intro n s hpc hbyte0 hbyte1
  have hloop := continuesTo_of_jumpsToItself n ⟨hpc, hbyte0, hbyte1⟩
  exact ⟨_, (continuesTo_iff.1 hloop).1, rfl, rfl, rfl, rfl, hostRun_eq_iff.2 (.inr ⟨_, hloop, rfl⟩)⟩

end Sys2Proof.Machine
end
